-- ==== Sys2Proof/Word.lean ====
section
/-! DEFINITION. Word.lean: the bit vectors the engine's rules work on (00_scope.md R8, R10, R11).
The `+`, `~~~`, `&&&`, `|||`, `^^^`, `<<<` and `>>>` of `BitVec 32` are R11's word operators: addition wraps
modulo 2^32, and both shifts fill with zeros. -/

namespace Sys2Proof

/-- `u8` of R10: one byte of the payload, the buffer or the digest. -/
abbrev Byte := BitVec 8

/-- `u32` of R10: a state word, a message word or a round constant. -/
abbrev Word := BitVec 32

/-- `u64` of R10: the width of `BITCOUNT` (R8, R22). -/
abbrev DWord := BitVec 64

/-- The 2-bit algorithm tag of R73: 0 is MD5, 1 is SHA-256, 2 and 3 select nothing. -/
abbrev Tag := BitVec 2

end Sys2Proof
end

