-- ==== Sys2Proof/Config.lean ====
section
/-! DEFINITION. Config.lean: the free values the spec leaves unspecified, as constants without a body, and the fixed
sizes of R8 and R9. No value of one can be proved, so every claim holds whatever it is. What can be proved is that one
engine instance finds the same value for the same draw and place, which the spec leaves open too: that is the model's
choice (log entry 20).
`N_ENGINES` (R9, D20) is an argument of `SystemState.reset`, `NAME_CASE_FOLD` (R9, D16) is an argument of `resolveName`;
`BUS_BINDING` (R9, D2) has no effect on the transaction semantics, so nothing here depends on it. -/

namespace Sys2Proof

/-- The unspecified value a state word holds after a command that leaves it unspecified: `H[4..7]` after INIT of MD5
(R161, U5). The arguments are the number of the engine instance, the number of its earlier draws, and the word's index in
`H`: instances do not share their values (R21, R169). Free value, log entries 2 and 20. -/
opaque Config.freeWord : Nat → Nat → Nat → Word

/-- The value of a buffer byte that has no specified value: addresses at or beyond `FILL` (R23, U4) and the whole
buffer after FINAL (R202, U7). The arguments are the number of the engine instance, the number of its earlier draws, and
the address: instances do not share their values (R23, R169). Free value, log entries 3 and 20. -/
opaque Config.freeByte : Nat → Nat → Nat → Byte

/-- Bytes of a block and of the buffer (R8): 64. -/
abbrev Config.blockBytes : Nat := 64

/-- Bytes of the `DIGEST` register (R32): 32. -/
abbrev Config.digestBytes : Nat := 32

/-- Bytes of the `DESC.NAME` field (R33): 8. -/
abbrev Config.nameBytes : Nat := 8

/-- `LEN_BITS` of R9 and D6: the width of the command word's `LEN` field. -/
abbrev Config.lenBits : Nat := 24

end Sys2Proof
end

