-- ==== Sys2Proof/Syntax.lean ====
section
/-! DEFINITION. Syntax.lean: the six operations of spec/opcode_table.json as one inductive, with the operands their rules
name, and the two encoded forms they come in: format C (a command transaction, 30_encoding.md R70, R71) and format T
(the internal request to a transform unit, R79). -/

namespace Sys2Proof

/-- The four state words A, B, C, D of MD5: the `st_in` and `st_out` of R100. -/
structure Md5Words where
  a : Word
  b : Word
  c : Word
  d : Word
  deriving DecidableEq, Repr

/-- The eight state words H0 … H7 of SHA-256 (R130), and the eight working variables a … h of R143. -/
structure Sha256Words where
  a : Word
  b : Word
  c : Word
  d : Word
  e : Word
  f : Word
  g : Word
  h : Word
  deriving DecidableEq, Repr

/-- One constructor per row of spec/opcode_table.json. -/
inductive Instr where
  /-- INIT (R160): start a new context for the algorithm of tag `alg`. Every tag encodes; 2 and 3 are not found. -/
  | init (alg : Tag)
  /-- UPDATE (R163): append the payload `DataIn(0..LEN-1)`; `LEN` is the payload's length. -/
  | update (data : List Byte)
  /-- FINAL (R190): pad, transform and emit the digest. -/
  | final
  /-- LOOKUP (R222): return the descriptor of the tag `alg`. -/
  | lookup (alg : Tag)
  /-- MD5_TRANSFORM (R110), internal format T with `UNIT = 0`: the state words and the 64 bytes of a block. -/
  | md5Transform (st : Md5Words) (blk : List Byte)
  /-- SHA256_TRANSFORM (R140), internal format T with `UNIT = 1`: the state words and the 64 bytes of a block. -/
  | sha256Transform (st : Sha256Words) (blk : List Byte)
  deriving DecidableEq, Repr

/-- A command transaction (R70): one 32-bit command word and the payload bytes delivered with it as one unit. -/
structure Transaction where
  word : BitVec 32
  payload : List Byte
  deriving DecidableEq, Repr

/-- An internal request of format T (R79): the bit `UNIT`, the current state words and the block bytes it carries. -/
structure UnitRequest where
  unit : BitVec 1
  words : List Word
  block : List Byte
  deriving DecidableEq, Repr

/-- What an instruction encodes to: a transaction on the command port or a request to a transform unit. -/
inductive Encoded where
  | command (t : Transaction)
  | unit (r : UnitRequest)
  deriving DecidableEq, Repr

/-- What R76's `decode` returns for a command word that is not `ILLEGAL`. -/
inductive Command where
  | init (alg : Tag)
  | update (len : BitVec 24)
  | final
  | lookup (alg : Tag)
  deriving DecidableEq, Repr

/-- Why a command word is `ILLEGAL`: the three kinds of R77, the third split by field (R243). -/
inductive Illegal where
  /-- `OP` is 0x0 or 0x5..0xF. -/
  | opcode
  /-- `RSV` is not zero. -/
  | reserved
  /-- `ALG` is not zero on UPDATE or FINAL. -/
  | algField
  /-- `LEN` is not zero on INIT, FINAL or LOOKUP. -/
  | lenField
  deriving DecidableEq, Repr

/-- Why the decoder gives no instruction. -/
inductive Reject where
  /-- The command word is `ILLEGAL` (R77), and the transaction is the word alone (R76). -/
  | illegal (why : Illegal)
  /-- The payload is not exactly the bytes the command word announces (R284, U14). -/
  | payloadFraming
  /-- A format T request that does not carry one block of 64 bytes and the unit's state words (R100, R130). -/
  | unitFraming
  deriving DecidableEq, Repr

end Sys2Proof
end

