-- ==== Sys2Proof/WellFormed.lean ====
section
/-! DEFINITION. WellFormed.lean: the operand values an encoding admits. Everything else about an instruction is carried
by its types: a tag has two bits, state words have 32. -/

namespace Sys2Proof

/-- An instruction that has an encoding: an UPDATE's payload length fits the 24-bit `LEN` field (R74, D6), and a
transform's block is exactly 64 bytes (R100, R130). Every tag is encodable on INIT and LOOKUP (R77). -/
def Instr.wellFormed : Instr → Bool
  | .init _ => true
  | .update data => decide (data.length < 2 ^ Config.lenBits)
  | .final => true
  | .lookup _ => true
  | .md5Transform _ blk => decide (blk.length = Config.blockBytes)
  | .sha256Transform _ blk => decide (blk.length = Config.blockBytes)

end Sys2Proof
end

