-- ==== Sys2Proof/Decode.lean ====
section
/-! DEFINITION. Decode.lean: the decoder of 30_encoding.md, total on any command word and any request, and after it the
encoder, written from the same tables. -/

namespace Sys2Proof

/-! ### Fields of format C (R71) -/

/-- `OP`, bits [3:0]. -/
def opField (w : BitVec 32) : BitVec 4 := w.extractLsb' 0 4

/-- `ALG`, bits [5:4]. -/
def algField (w : BitVec 32) : Tag := w.extractLsb' 4 2

/-- `RSV`, bits [7:6]. -/
def rsvField (w : BitVec 32) : BitVec 2 := w.extractLsb' 6 2

/-- `LEN`, bits [31:8]. -/
def lenField24 (w : BitVec 32) : BitVec 24 := w.extractLsb' 8 24

/-- The kind of an ill-formed word of a known `OP`: its nonzero must-be-zero field (R75, R77), `RSV` named first. -/
def illFormed (w : BitVec 32) (algMustBeZero lenMustBeZero : Bool) : Option Illegal :=
  if rsvField w ≠ 0 then some .reserved
  else if algMustBeZero && algField w != 0 then some .algField
  else if lenMustBeZero && lenField24 w != 0 then some .lenField
  else none

/-- R76's `decode`: the command a word stands for, or why it is `ILLEGAL`. `OP` is 0x1 INIT, 0x2 UPDATE, 0x3 FINAL and
0x4 LOOKUP (R72). -/
def decodeWord (w : BitVec 32) : Except Illegal Command :=
  if opField w = 0x1 then
    match illFormed w false true with
    | some why => .error why
    | none => .ok (.init (algField w))
  else if opField w = 0x2 then
    match illFormed w true false with
    | some why => .error why
    | none => .ok (.update (lenField24 w))
  else if opField w = 0x3 then
    match illFormed w true true with
    | some why => .error why
    | none => .ok .final
  else if opField w = 0x4 then
    match illFormed w false true with
    | some why => .error why
    | none => .ok (.lookup (algField w))
  else .error .opcode

/-- The number of payload bytes a command carries after its word: `LEN` for UPDATE, none otherwise (R74). -/
def Command.payloadLength : Command → Nat
  | .update len => len.toNat
  | _ => 0

/-- A command with its payload as an instruction. -/
def Command.withPayload (payload : List Byte) : Command → Instr
  | .init alg => .init alg
  | .update _ => .update payload
  | .final => .final
  | .lookup alg => .lookup alg

/-- A transaction decoded: the word by R76, then the framing of its payload, which is exactly the `LEN` bytes the word
announces and nothing after an ill-formed word (R74, R76, R284). -/
def decodeTransaction (t : Transaction) : Except Reject Instr :=
  match decodeWord t.word with
  | .error why => if t.payload.length = 0 then .error (.illegal why) else .error .payloadFraming
  | .ok c => if t.payload.length = c.payloadLength then .ok (c.withPayload t.payload) else .error .payloadFraming

/-- A format T request decoded (R79): `UNIT` 0 is `md5_block_transform` with four state words, `UNIT` 1 is
`sha256_block_transform` with eight, and the block has exactly 64 bytes. -/
def decodeUnit (r : UnitRequest) : Except Reject Instr :=
  if r.block.length = Config.blockBytes then
    if r.unit = 0 then
      match r.words with
      | [a, b, c, d] => .ok (.md5Transform ⟨a, b, c, d⟩ r.block)
      | _ => .error .unitFraming
    else
      match r.words with
      | [a, b, c, d, e, f, g, h] => .ok (.sha256Transform ⟨a, b, c, d, e, f, g, h⟩ r.block)
      | _ => .error .unitFraming
  else .error .unitFraming

/-- The whole decoder, over both encoded forms. -/
def decode : Encoded → Except Reject Instr
  | .command t => decodeTransaction t
  | .unit r => decodeUnit r

/-! ### The encoder (R71, R75, R79, R80) -/

/-- A format C word from its fields, with `RSV` zero (R71, R80). -/
def commandWord (op : BitVec 4) (alg : Tag) (len : BitVec 24) : BitVec 32 :=
  op.setWidth 32 ||| (alg.setWidth 32 <<< 4) ||| (len.setWidth 32 <<< 8)

/-- The state words of a request in their order A, B, C, D (R21). -/
def Md5Words.toList (s : Md5Words) : List Word := [s.a, s.b, s.c, s.d]

/-- The state words of a request in their order H0 … H7 (R21). -/
def Sha256Words.toList (s : Sha256Words) : List Word := [s.a, s.b, s.c, s.d, s.e, s.f, s.g, s.h]

/-- The encoding of an instruction: R80's words for the four commands and R79's request for the two transforms. -/
def encode : Instr → Encoded
  | .init alg => .command ⟨commandWord 0x1 alg 0, []⟩
  | .update data => .command ⟨commandWord 0x2 0 (BitVec.ofNat 24 data.length), data⟩
  | .final => .command ⟨commandWord 0x3 0 0, []⟩
  | .lookup alg => .command ⟨commandWord 0x4 alg 0, []⟩
  | .md5Transform st blk => .unit ⟨0, st.toList, blk⟩
  | .sha256Transform st blk => .unit ⟨1, st.toList, blk⟩

/-! ### The opcode table's rows (R75) -/

/-- The `match` and `mask` of the table's row for a command: a word `w` selects the row when `w & mask = match`. -/
def Command.row : Command → BitVec 32 × BitVec 32
  | .init _ => (0x00000001, 0xFFFFFFCF)
  | .update _ => (0x00000002, 0x000000FF)
  | .final => (0x00000003, 0xFFFFFFFF)
  | .lookup _ => (0x00000004, 0xFFFFFFCF)

/-! ### The host's two questions about one word -/

/-- `n` bytes of 0x00 (R12). -/
def zeros (n : Nat) : List Byte := List.replicate n 0

/-- The transaction of a command word whose payload bytes are all zero. -/
def zeroPayload (w : BitVec 32) : Transaction :=
  match decodeWord w with
  | .ok c => ⟨w, zeros c.payloadLength⟩
  | .error _ => ⟨w, []⟩

/-- The request of format T with `UNIT` the given bit, whose state words and block are all zero. -/
def zeroRequest (unit : BitVec 1) : UnitRequest :=
  ⟨unit, if unit = 0 then List.replicate 4 0 else List.replicate 8 0, zeros 64⟩

/-- The encoded form of a word `w` of a row of `nbits` bits, with every operand byte above them zero: a row shorter than
the 32-bit command word is format T, whose one bit `UNIT` is bit 0 (R79). -/
def encodedOfTable (nbits w : Nat) : Encoded :=
  if nbits < 32 then .unit (zeroRequest (BitVec.ofNat 1 w)) else .command (zeroPayload (BitVec.ofNat 32 w))

/-- The instruction the decoder reads from a word as spec/opcode_table.json numbers its bits. -/
def decodeTableWord (nbits w : Nat) : Option Instr :=
  match decode (encodedOfTable nbits w) with
  | .ok i => some i
  | .error _ => none

end Sys2Proof
end

