-- ==== Sys2Proof/Machine/Operands.lean ====
section
/-! DEFINITION. Operands.lean: how operands are read and laid out in bytes: R11's rotates and shift, R12's packing
functions, and the message words of a block in the two byte orders of R54. -/

namespace Sys2Proof.Machine

/-- `rotl32(x, n)` for 0 < n < 32 (R11). -/
def rotl32 (x : Word) (n : Nat) : Word := (x <<< n) ||| (x >>> (32 - n))

/-- `rotr32(x, n)` for 0 < n < 32 (R11). -/
def rotr32 (x : Word) (n : Nat) : Word := (x >>> n) ||| (x <<< (32 - n))

/-- `shr32(x, n)`, with zero fill (R11). -/
def shr32 (x : Word) (n : Nat) : Word := x >>> n

/-- `LE32(b0, b1, b2, b3) = b0 | b1<<8 | b2<<16 | b3<<24` (R12). -/
def le32 (b0 b1 b2 b3 : Byte) : Word :=
  b0.setWidth 32 ||| (b1.setWidth 32 <<< 8) ||| (b2.setWidth 32 <<< 16) ||| (b3.setWidth 32 <<< 24)

/-- `BE32(b0, b1, b2, b3) = b0<<24 | b1<<16 | b2<<8 | b3` (R12). -/
def be32 (b0 b1 b2 b3 : Byte) : Word :=
  (b0.setWidth 32 <<< 24) ||| (b1.setWidth 32 <<< 16) ||| (b2.setWidth 32 <<< 8) ||| b3.setWidth 32

/-- Byte `k` of a word, byte 0 the least significant. -/
def wordByte (w : Word) (k : Nat) : Byte := w.extractLsb' (8 * k) 8

/-- `le32bytes(w)`, the inverse of `LE32` (R12). -/
def le32bytes (w : Word) : List Byte := [wordByte w 0, wordByte w 1, wordByte w 2, wordByte w 3]

/-- `be32bytes(w)`, the inverse of `BE32` (R12). -/
def be32bytes (w : Word) : List Byte := [wordByte w 3, wordByte w 2, wordByte w 1, wordByte w 0]

/-- `le64bytes(v)`: the 8 bytes of a `u64`, least significant first (R12). -/
def le64bytes (v : DWord) : List Byte := (List.range 8).map (fun k => v.extractLsb' (8 * k) 8)

/-- `be64bytes(v)`: the 8 bytes of a `u64`, most significant first (R12). -/
def be64bytes (v : DWord) : List Byte := (le64bytes v).reverse

/-- Byte `i` of a block of 64 bytes. -/
def blockByte (blk : List Byte) (i : Nat) : Byte := blk.getD i 0

/-- MD5's message word `m[j] = LE32(blk[4j..4j+4))` (R111). -/
def messageWordLE (blk : List Byte) (j : Nat) : Word :=
  le32 (blockByte blk (4 * j)) (blockByte blk (4 * j + 1)) (blockByte blk (4 * j + 2)) (blockByte blk (4 * j + 3))

/-- SHA-256's message word `w[j] = BE32(blk[4j..4j+4))` (R141). -/
def messageWordBE (blk : List Byte) (j : Nat) : Word :=
  be32 (blockByte blk (4 * j)) (blockByte blk (4 * j + 1)) (blockByte blk (4 * j + 2)) (blockByte blk (4 * j + 3))

/-- The sixteen message words of a block for MD5, in order (R111). -/
def messageWordsLE (blk : List Byte) : List Word := (List.range 16).map (messageWordLE blk)

/-- The sixteen message words of a block for SHA-256, in order (R141). -/
def messageWordsBE (blk : List Byte) : List Word := (List.range 16).map (messageWordBE blk)

end Sys2Proof.Machine
end

