-- ==== Sys2Proof/Machine/State.lean ====
section
/-! DEFINITION. State.lean: the state of one engine instance (10_state.md R20), as plain data, with the inputs the host
drives it by, and the state after hardware reset (R37). -/

namespace Sys2Proof.Machine

/-- The state words `H[0..7]` (R21). Under MD5 the first four are A, B, C, D; under SHA-256 they are H0 … H7. -/
structure StateWords where
  h0 : Word
  h1 : Word
  h2 : Word
  h3 : Word
  h4 : Word
  h5 : Word
  h6 : Word
  h7 : Word
  deriving DecidableEq, Repr

/-- The lifecycle register `LC`, 2 bits, whose four values all have a name (R25). -/
inductive Lifecycle where
  | uninit
  | fresh
  | accum
  | finalized
  deriving DecidableEq, Repr

/-- `STATUS.ERR`, 3 bits: the codes of R31. Codes 5 to 7 are never produced, so they have no name here. -/
inductive ErrCode where
  | none
  | illegalCmd
  | algNotFound
  | seqErr
  | lenOvf
  deriving DecidableEq, Repr

/-- The descriptor record `DESC` (R33). -/
structure Descriptor where
  alg : Tag
  digestSize : BitVec 8
  contextSize : BitVec 8
  /-- Eight ASCII bytes, filled with 0x00. -/
  name : List Byte
  deriving DecidableEq, Repr

/-- The partial-block buffer `BUFFER[0..63]` (R23, R50): the bytes that have a specified value, as address and byte
pairs with the addresses strictly rising. An address that is not listed has no specified value. -/
abbrev Memory := List Host.Cell

/-- The addresses of a buffer strictly rise. -/
def Memory.rising : Memory → Bool
  | [] => true
  | [_] => true
  | p :: q :: m => decide (p.1 < q.1) && Memory.rising (q :: m)

/-- The canonical form of a buffer: addresses strictly rising and all in 0..63 (R50). An unlisted address reads as no
value, so no entry can be equal to it, and equal buffers are equal lists. -/
def Memory.wf (m : Memory) : Bool := Memory.rising m && m.all (fun p => decide (p.1 < Config.blockBytes))

/-- The value a host read returns: the whole of one of the three registers of R34. -/
inductive RegValue where
  | status (v : BitVec 32)
  | digest (v : List Byte)
  | desc (v : Descriptor)
  deriving DecidableEq, Repr

/-- What the host can do to one engine instance: issue a command transaction (R70), read a logical register (R34), or
drive hardware reset (R270). -/
inductive PortEvent where
  | command (t : Transaction)
  | read (reg : Nat)
  | reset
  deriving DecidableEq, Repr

/-- The state of one engine instance: the tuple of R20, then the inputs and outputs of its two interfaces, then its
number, then the model's own counters of free values. -/
structure State where
  /-- `H[0..7]` (R21). -/
  h : StateWords
  /-- `BITCOUNT` (R22). -/
  bitCount : DWord
  /-- `BUFFER[0..63]` (R23). -/
  buffer : Memory
  /-- `LC` (R25). -/
  lc : Lifecycle
  /-- `CTX_ALG`, 2 bits (R26). -/
  ctxAlg : Tag
  /-- `STATUS.ERR` (R29, R31). -/
  err : ErrCode
  /-- `STATUS.DIGEST_VALID` (R29, R35). -/
  digestValid : Bool
  /-- `STATUS.DESC_VALID` (R29, R35). -/
  descValid : Bool
  /-- `DIGEST[0..31]` (R32). -/
  digest : List Byte
  /-- `DESC` (R33). -/
  desc : Descriptor
  /-- The host's events the engine has not taken yet, oldest first (R70; log entry 1). -/
  inbox : List PortEvent
  /-- The value the last host read returned (R53; log entry 10). -/
  readData : Option RegValue
  /-- A format T request waiting at the transform units (R79; log entry 7). -/
  unitReq : Option UnitRequest
  /-- The words the transform unit returned last (R79; log entry 7). -/
  unitReply : Option (List Word)
  /-- Which of the instances `0..N_ENGINES-1` this is (R255). No operation changes it. -/
  engine : Nat
  /-- The model's own: how often a command has left state words unspecified (log entry 2). -/
  wordDraws : Nat
  /-- The model's own: how often the buffer's bytes have become unspecified (log entry 3). -/
  byteDraws : Nat
  deriving DecidableEq, Repr

/-- Why the machine stops with a fault. No step from a state that satisfies `State.Inv` does. -/
inductive Fault where
  /-- Raised by `memRead` and `memWrite` for an access that leaves the addresses 0..63, where R50 says the buffer has no
  byte. R50 also says no rule makes one. Safe: the hardware's behaviour is not claimed. -/
  | outsideBuffer (addr : Nat)
  /-- Raised by `transformCtx`, `lenField` and `serialize` when `CTX_ALG` is 2 or 3, a tag R225 gives no meaning and
  R26 says is never stored. Safe: the hardware's behaviour is not claimed. -/
  | undefinedAlgorithm (tag : Tag)
  deriving DecidableEq, Repr

/-- Why a step is refused. -/
inductive Refusal where
  /-- An instruction that has no meaning yet, by its mnemonic. Raised by no arm of this model. Safe. -/
  | notModelled (mnemonic : String)
  /-- Raised when a transaction's payload is not exactly the bytes its word announces: it has no step (R284, U14).
  Safe. -/
  | payloadFraming
  /-- Raised when a format T request does not carry one block and the unit's state words, which R100 and R130 rule out.
  Safe. -/
  | unitFraming
  /-- Raised by a host read of a register number other than 0, 1 and 2 (R34, U15). Safe. -/
  | noSuchRegister (reg : Nat)
  deriving DecidableEq, Repr

/-- All eight state words zero: the value this model names for `H` after reset (log entry 4). -/
def StateWords.zero : StateWords := ⟨0, 0, 0, 0, 0, 0, 0, 0⟩

/-- `DESC` with every field 0 (R33). -/
def Descriptor.zero : Descriptor := ⟨0, 0, 0, List.replicate Config.nameBytes 0⟩

/-- The machine right after hardware reset (R37, R270). `H` and `BITCOUNT` are unspecified there; this model names zero
for them (log entry 4), and no byte of the buffer has a specified value. The core is instance 0 (log entry 13). -/
def State.reset : State where
  h := StateWords.zero
  bitCount := 0
  buffer := []
  lc := .uninit
  ctxAlg := 0
  err := .none
  digestValid := false
  descValid := false
  digest := List.replicate Config.digestBytes 0
  desc := Descriptor.zero
  inbox := []
  readData := none
  unitReq := none
  unitReply := none
  engine := 0
  wordDraws := 0
  byteDraws := 0

end Sys2Proof.Machine
end

