-- ==== Sys2Proof/Machine/Ops.lean ====
section
/-! DEFINITION. Ops.lean: the shared operations over the buffer and the registers, and the one operation that raises an
error (R241). -/

namespace Sys2Proof.Machine

/-! ### The buffer's bytes (R50) -/

/-- The byte at an address, if it has a specified value. -/
def Memory.byte? : Memory → Nat → Option Byte
  | [], _ => none
  | (k, b) :: m, a => if k = a then some b else Memory.byte? m a

/-- The buffer with the byte at `a` set to `b`, keeping the addresses rising. -/
def Memory.set : Memory → Nat → Byte → Memory
  | [], a, b => [(a, b)]
  | (k, c) :: m, a, b =>
    if a < k then (a, b) :: (k, c) :: m
    else if a = k then (a, b) :: m
    else (k, c) :: Memory.set m a b

/-- The buffer with the bytes `v` set at `a`, `a + 1`, … -/
def Memory.setList : Memory → Nat → List Byte → Memory
  | m, _, [] => m
  | m, a, b :: v => Memory.setList (Memory.set m a b) (a + 1) v

/-- The byte of the buffer at an address: the value it was given, or a free value where the spec leaves it unspecified
(R23, R202; log entry 3). That one instance reads one value at one address until its next draw is the model's choice
(log entry 20). -/
def State.bufferByte (s : State) (a : Nat) : Byte := (s.buffer.byte? a).getD (Config.freeByte s.engine s.byteDraws a)

/-- The state with the buffer replaced. -/
def State.withBuffer (s : State) (m : Memory) : State := { s with buffer := m }

/-- The state with the state words replaced. -/
def State.withWords (s : State) (h : StateWords) : State := { s with h := h }

/-- `MemRead(addr, n)`: the bytes `BUFFER[addr..addr+n)` (R50). -/
def State.memRead (s : State) (addr n : Nat) : Except Fault (List Byte) :=
  if addr + n ≤ Config.blockBytes then .ok ((List.range' addr n).map s.bufferByte)
  else .error (.outsideBuffer (max addr Config.blockBytes))

/-- `MemWrite(addr, n, v)` with `n` the number of bytes of `v`: sets `BUFFER[addr+k] <- v[k]` (R50). -/
def State.memWrite (s : State) (addr : Nat) (v : List Byte) : Except Fault State :=
  if addr + v.length ≤ Config.blockBytes then .ok (s.withBuffer (s.buffer.setList addr v))
  else .error (.outsideBuffer (max addr Config.blockBytes))

/-- The buffer consumed: none of its bytes has a specified value from here on. After a block is transformed only the
bytes below `FILL` are specified again (R23, R165), and after FINAL none is (R202). -/
def State.consumeBuffer (s : State) : State := { s with buffer := [], byteDraws := s.byteDraws + 1 }

/-- The fill level `FILL = (BITCOUNT / 8) mod 64` (R24). -/
def State.fill (s : State) : Nat := (s.bitCount.toNat / 8) % 64

/-! ### The state words as the two algorithms see them (R21) -/

/-- `(H[0], H[1], H[2], H[3])`, the words A, B, C, D. -/
def StateWords.md5 (h : StateWords) : Md5Words := ⟨h.h0, h.h1, h.h2, h.h3⟩

/-- `(H[0], H[1], H[2], H[3]) <- w`, with `H[4..7]` not touched (R166). -/
def StateWords.withMd5 (h : StateWords) (w : Md5Words) : StateWords :=
  { h with h0 := w.a, h1 := w.b, h2 := w.c, h3 := w.d }

/-- `H[0..7]` as H0 … H7. -/
def StateWords.sha256 (h : StateWords) : Sha256Words := ⟨h.h0, h.h1, h.h2, h.h3, h.h4, h.h5, h.h6, h.h7⟩

/-- `H[0..7] <- w`. -/
def StateWords.ofSha256 (w : Sha256Words) : StateWords := ⟨w.a, w.b, w.c, w.d, w.e, w.f, w.g, w.h⟩

/-! ### Errors (R241) -/

/-- `raise Err(code)`: the first error wins, and nothing else changes (R241, R242, R249). The return from an error is a
successful INIT (`startContext`) or reset (`hardwareReset`). -/
def State.raise (s : State) (code : ErrCode) : State :=
  { s with err := if s.err = .none then code else s.err }

/-- The outcome of an operation that either completes with a state or faults. -/
def ofResult : Except Fault State → Host.Outcome State Fault Refusal
  | .ok s => .next s
  | .error f => .fault f

end Sys2Proof.Machine
end

