-- ==== Sys2Proof/Machine/Flags.lean ====
section
/-! DEFINITION. Flags.lean: the status flags of R35, their codes (R25, R31), and the `STATUS` word they make (R29). No
arithmetic flag exists (R35). -/

namespace Sys2Proof.Machine

/-- The 2-bit value of `LC` (R25). -/
def Lifecycle.code : Lifecycle → BitVec 2
  | .uninit => 0
  | .fresh => 1
  | .accum => 2
  | .finalized => 3

/-- The 3-bit value of `STATUS.ERR` (R31). -/
def ErrCode.code : ErrCode → BitVec 3
  | .none => 0
  | .illegalCmd => 1
  | .algNotFound => 2
  | .seqErr => 3
  | .lenOvf => 4

/-- `STATUS.CTX_ALG`: the current context's tag, which reads 0 while no context exists (R29). -/
def State.statusAlg (s : State) : Tag := if s.lc = .uninit then 0 else s.ctxAlg

/-- The 32-bit `STATUS` word: `LC` [1:0], `CTX_ALG` [3:2], `ERR` [6:4], `DIGEST_VALID` [7], `DESC_VALID` [8], and [31:9]
read 0 (R29). -/
def State.statusWord (s : State) : BitVec 32 :=
  s.lc.code.setWidth 32 ||| (s.statusAlg.setWidth 32 <<< 2) ||| (s.err.code.setWidth 32 <<< 4) |||
    ((BitVec.ofBool s.digestValid).setWidth 32 <<< 7) ||| ((BitVec.ofBool s.descValid).setWidth 32 <<< 8)

/-- `STATUS.DIGEST_VALID <- 0` with `DIGEST[0..31] <- zeros(32)`, as a successful INIT does (R32, R160). -/
def State.clearDigest (s : State) : State :=
  { s with digestValid := false, digest := zeros Config.digestBytes }

/-- `DIGEST[0..len(d)) <- d`, the rest of the 32 bytes zero, and `STATUS.DIGEST_VALID <- 1` (R32, R190, R201). -/
def State.setDigest (s : State) (d : List Byte) : State :=
  { s with digestValid := true, digest := d ++ zeros (Config.digestBytes - d.length) }

/-- `DESC <- d` with `STATUS.DESC_VALID`, as LOOKUP writes them together (R33, R222). -/
def State.setDesc (s : State) (d : Descriptor) (found : Bool) : State := { s with desc := d, descValid := found }

end Sys2Proof.Machine
end

