-- ==== Sys2Proof/Machine/Md5.lean ====
section
/-! DEFINITION. Md5.lean: `md5_block_transform` (40_md5_block_transform.md), a pure function of four state words and one
block, and the meaning of its format T request. The formulas and constants are the spec's, which takes them from
RFC 1321 (log entry 15). -/

namespace Sys2Proof.Machine

/-- `F(x, y, z)`, rounds 0..15 (R101). -/
def md5F (x y z : Word) : Word := (x &&& y) ||| (~~~x &&& z)

/-- `G(x, y, z)`, rounds 16..31 (R101). -/
def md5G (x y z : Word) : Word := (x &&& z) ||| (y &&& ~~~z)

/-- `H(x, y, z)`, rounds 32..47 (R101). -/
def md5H (x y z : Word) : Word := x ^^^ y ^^^ z

/-- `I(x, y, z)`, rounds 48..63 (R101). -/
def md5I (x y z : Word) : Word := y ^^^ (x ||| ~~~z)

/-- The mixing function of round `i` (R101, R112). -/
def md5Mix (i : Nat) (x y z : Word) : Word :=
  if i < 16 then md5F x y z else if i < 32 then md5G x y z else if i < 48 then md5H x y z else md5I x y z

/-- The table of R102, row by row: row `k` is the line that starts at `i = 4k`. -/
def md5KRow : Nat → List Word
  | 0 => [0xd76aa478, 0xe8c7b756, 0x242070db, 0xc1bdceee]
  | 1 => [0xf57c0faf, 0x4787c62a, 0xa8304613, 0xfd469501]
  | 2 => [0x698098d8, 0x8b44f7af, 0xffff5bb1, 0x895cd7be]
  | 3 => [0x6b901122, 0xfd987193, 0xa679438e, 0x49b40821]
  | 4 => [0xf61e2562, 0xc040b340, 0x265e5a51, 0xe9b6c7aa]
  | 5 => [0xd62f105d, 0x02441453, 0xd8a1e681, 0xe7d3fbc8]
  | 6 => [0x21e1cde6, 0xc33707d6, 0xf4d50d87, 0x455a14ed]
  | 7 => [0xa9e3e905, 0xfcefa3f8, 0x676f02d9, 0x8d2a4c8a]
  | 8 => [0xfffa3942, 0x8771f681, 0x6d9d6122, 0xfde5380c]
  | 9 => [0xa4beea44, 0x4bdecfa9, 0xf6bb4b60, 0xbebfbc70]
  | 10 => [0x289b7ec6, 0xeaa127fa, 0xd4ef3085, 0x04881d05]
  | 11 => [0xd9d4d039, 0xe6db99e5, 0x1fa27cf8, 0xc4ac5665]
  | 12 => [0xf4292244, 0x432aff97, 0xab9423a7, 0xfc93a039]
  | 13 => [0x655b59c3, 0x8f0ccc92, 0xffeff47d, 0x85845dd1]
  | 14 => [0x6fa87e4f, 0xfe2ce6e0, 0xa3014314, 0x4e0811a1]
  | 15 => [0xf7537e82, 0xbd3af235, 0x2ad7d2bb, 0xeb86d391]
  | _ => []

/-- The round constant `K[i]`, for `i` in 0..63 (R102). -/
def md5K (i : Nat) : Word := (md5KRow (i / 4)).getD (i % 4) 0

/-- The rotation amounts of one group of 16 rounds, repeated four times (R103). -/
def md5RotateGroup (i : Nat) : List Nat :=
  if i < 16 then [7, 12, 17, 22] else if i < 32 then [5, 9, 14, 20] else if i < 48 then [4, 11, 16, 23]
  else [6, 10, 15, 21]

/-- The rotation amount `s[i]` (R103). -/
def md5Rotate (i : Nat) : Nat := (md5RotateGroup i).getD (i % 4) 0

/-- The message-word index `g(i)` (R104). -/
def md5Index (i : Nat) : Nat :=
  if i < 16 then i else if i < 32 then (5 * i + 1) % 16 else if i < 48 then (3 * i + 5) % 16 else (7 * i) % 16

/-- The initial state words A, B, C, D (R105). -/
def md5Initial : Md5Words := ⟨0x67452301, 0xefcdab89, 0x98badcfe, 0x10325476⟩

/-- One round step (R112): `new <- b + rotl32(a + f_i(b,c,d) + K[i] + m[g(i)], s[i])`, then
`(a, b, c, d) <- (d, new, b, c)`. -/
def md5Round (m : List Word) (v : Md5Words) (i : Nat) : Md5Words where
  a := v.d
  b := v.b + rotl32 (v.a + md5Mix i v.b v.c v.d + md5K i + m.getD (md5Index i) 0) (md5Rotate i)
  c := v.b
  d := v.c

/-- The working variables after the first `n` rounds (R110). -/
def md5Rounds (n : Nat) (st : Md5Words) (blk : List Byte) : Md5Words :=
  (List.range n).foldl (md5Round (messageWordsLE blk)) st

/-- Componentwise addition modulo 2^32, the last line of R110. -/
def md5Add (x y : Md5Words) : Md5Words := ⟨x.a + y.a, x.b + y.b, x.c + y.c, x.d + y.d⟩

/-- `Transform_MD5` (R110, R113): total, and a function of the state words and the block alone. -/
def transformMd5 (st : Md5Words) (blk : List Byte) : Md5Words := md5Add st (md5Rounds 64 st blk)

/-- MD5_TRANSFORM (R100, R110): the unit returns the new state words and writes no register (R113). -/
def execMd5Transform (st : Md5Words) (blk : List Byte) (s : State) : Host.Outcome State Fault Refusal :=
  .next { s with unitReply := some (transformMd5 st blk).toList }

end Sys2Proof.Machine
end

