-- ==== Sys2Proof/Machine/Sha256.lean ====
section
/-! DEFINITION. Sha256.lean: `sha256_block_transform` (41_sha256_block_transform.md), a pure function of eight state words
and one block, and the meaning of its format T request. The formulas and constants are the spec's, which takes them from
FIPS 180-4 (log entry 15). -/

namespace Sys2Proof.Machine

/-- `Σ0(x)` (R131). -/
def shaBigSigma0 (x : Word) : Word := rotr32 x 2 ^^^ rotr32 x 13 ^^^ rotr32 x 22

/-- `Σ1(x)` (R131). -/
def shaBigSigma1 (x : Word) : Word := rotr32 x 6 ^^^ rotr32 x 11 ^^^ rotr32 x 25

/-- `σ0(x)` (R131). -/
def shaSmallSigma0 (x : Word) : Word := rotr32 x 7 ^^^ rotr32 x 18 ^^^ shr32 x 3

/-- `σ1(x)` (R131). -/
def shaSmallSigma1 (x : Word) : Word := rotr32 x 17 ^^^ rotr32 x 19 ^^^ shr32 x 10

/-- `Ch(x, y, z)` (R132). -/
def shaCh (x y z : Word) : Word := (x &&& y) ^^^ (~~~x &&& z)

/-- `Maj(x, y, z)` (R132). -/
def shaMaj (x y z : Word) : Word := (x &&& y) ^^^ (x &&& z) ^^^ (y &&& z)

/-- The table of R134, row by row: row `k` is the line that starts at `t = 8k`. -/
def shaKRow : Nat → List Word
  | 0 => [0x428a2f98, 0x71374491, 0xb5c0fbcf, 0xe9b5dba5, 0x3956c25b, 0x59f111f1, 0x923f82a4, 0xab1c5ed5]
  | 1 => [0xd807aa98, 0x12835b01, 0x243185be, 0x550c7dc3, 0x72be5d74, 0x80deb1fe, 0x9bdc06a7, 0xc19bf174]
  | 2 => [0xe49b69c1, 0xefbe4786, 0x0fc19dc6, 0x240ca1cc, 0x2de92c6f, 0x4a7484aa, 0x5cb0a9dc, 0x76f988da]
  | 3 => [0x983e5152, 0xa831c66d, 0xb00327c8, 0xbf597fc7, 0xc6e00bf3, 0xd5a79147, 0x06ca6351, 0x14292967]
  | 4 => [0x27b70a85, 0x2e1b2138, 0x4d2c6dfc, 0x53380d13, 0x650a7354, 0x766a0abb, 0x81c2c92e, 0x92722c85]
  | 5 => [0xa2bfe8a1, 0xa81a664b, 0xc24b8b70, 0xc76c51a3, 0xd192e819, 0xd6990624, 0xf40e3585, 0x106aa070]
  | 6 => [0x19a4c116, 0x1e376c08, 0x2748774c, 0x34b0bcb5, 0x391c0cb3, 0x4ed8aa4a, 0x5b9cca4f, 0x682e6ff3]
  | 7 => [0x748f82ee, 0x78a5636f, 0x84c87814, 0x8cc70208, 0x90befffa, 0xa4506ceb, 0xbef9a3f7, 0xc67178f2]
  | _ => []

/-- The round constant `K[t]`, for `t` in 0..63 (R134). -/
def shaK (t : Nat) : Word := (shaKRow (t / 8)).getD (t % 8) 0

/-- The initial state words H0 … H7 (R135). -/
def sha256Initial : Sha256Words :=
  ⟨0x6a09e667, 0xbb67ae85, 0x3c6ef372, 0xa54ff53a, 0x510e527f, 0x9b05688c, 0x1f83d9ab, 0x5be0cd19⟩

/-- The schedule word `w[t]` for t in 16..63 from the words before it (R142). -/
def shaScheduleWord (w : List Word) (t : Nat) : Word :=
  shaSmallSigma1 (w.getD (t - 2) 0) + w.getD (t - 7) 0 + shaSmallSigma0 (w.getD (t - 15) 0) + w.getD (t - 16) 0

/-- The message schedule `w[0..63]` (R141, R142). -/
def shaSchedule (blk : List Byte) : List Word :=
  (List.range' 16 48).foldl (fun w t => w ++ [shaScheduleWord w t]) (messageWordsBE blk)

/-- `t1` of R143. -/
def shaT1 (w : List Word) (v : Sha256Words) (t : Nat) : Word :=
  v.h + shaBigSigma1 v.e + shaCh v.e v.f v.g + shaK t + w.getD t 0

/-- `t2` of R143. -/
def shaT2 (v : Sha256Words) : Word := shaBigSigma0 v.a + shaMaj v.a v.b v.c

/-- One round step (R143): `(a, …, h) <- (t1 + t2, a, b, c, d + t1, e, f, g)`. -/
def shaRound (w : List Word) (v : Sha256Words) (t : Nat) : Sha256Words where
  a := shaT1 w v t + shaT2 v
  b := v.a
  c := v.b
  d := v.c
  e := v.d + shaT1 w v t
  f := v.e
  g := v.f
  h := v.g

/-- The working variables after the first `n` rounds (R140). -/
def shaRounds (n : Nat) (st : Sha256Words) (blk : List Byte) : Sha256Words :=
  (List.range n).foldl (shaRound (shaSchedule blk)) st

/-- Componentwise addition modulo 2^32, the last line of R140. -/
def shaAdd (x y : Sha256Words) : Sha256Words :=
  ⟨x.a + y.a, x.b + y.b, x.c + y.c, x.d + y.d, x.e + y.e, x.f + y.f, x.g + y.g, x.h + y.h⟩

/-- `Transform_SHA256` (R140, R144): total, and a function of the state words and the block alone. -/
def transformSha256 (st : Sha256Words) (blk : List Byte) : Sha256Words := shaAdd st (shaRounds 64 st blk)

/-- SHA256_TRANSFORM (R130, R140): the unit returns the new state words and writes no register (R144). -/
def execSha256Transform (st : Sha256Words) (blk : List Byte) (s : State) : Host.Outcome State Fault Refusal :=
  .next { s with unitReply := some (transformSha256 st blk).toList }

end Sys2Proof.Machine
end

