-- ==== Sys2Proof/Machine/Context.lean ====
section
/-! DEFINITION. Context.lean: `digest_context_buffer_engine` (42_digest_context_buffer_engine.md): the transform step, INIT
and UPDATE. -/

namespace Sys2Proof.Machine

/-- `Transform_ctx(blk)`: folds one block into the state words of the current context (R166). Tags 2 and 3 are never
stored (R26) and have no transform (R225), so a state that holds one faults here (log entry 8). -/
def transformCtx (blk : List Byte) (s : State) : Except Fault State :=
  if s.ctxAlg = 0 then .ok (s.withWords (s.h.withMd5 (transformMd5 s.h.md5 blk)))
  else if s.ctxAlg = 1 then .ok (s.withWords (StateWords.ofSha256 (transformSha256 s.h.sha256 blk)))
  else .error (.undefinedAlgorithm s.ctxAlg)

/-! ### INIT -/

/-- The state words INIT of MD5 leaves: the initial A, B, C, D (R105), and unspecified values in `H[4..7]` (R161), which
are free values of the given engine instance and draw (log entries 2 and 20). -/
def md5Start (engine draw : Nat) : StateWords where
  h0 := md5Initial.a
  h1 := md5Initial.b
  h2 := md5Initial.c
  h3 := md5Initial.d
  h4 := Config.freeWord engine draw 4
  h5 := Config.freeWord engine draw 5
  h6 := Config.freeWord engine draw 6
  h7 := Config.freeWord engine draw 7

/-- `IV(alg)` for tag 0 or 1, as INIT loads it into `H` (R161). -/
def initialWords (alg : Tag) (engine draw : Nat) : StateWords :=
  if alg = 0 then md5Start engine draw else StateWords.ofSha256 sha256Initial

/-- The effect of a successful INIT (R160, R162), in every lifecycle state and whatever `STATUS.ERR` holds. `BITCOUNT`
becomes 0, so the buffer is empty although its bytes keep their values. -/
def startContext (alg : Tag) (s : State) : State :=
  { s.clearDigest with
    h := initialWords alg s.engine s.wordDraws
    wordDraws := if alg = 0 then s.wordDraws + 1 else s.wordDraws
    ctxAlg := alg
    bitCount := 0
    lc := .fresh
    err := .none }

/-- INIT (R160, R240 step 3): tags 2 and 3 raise ALG_NOT_FOUND (R244), tags 0 and 1 start a context. -/
def execInit (alg : Tag) (s : State) : Host.Outcome State Fault Refusal :=
  if alg = 0 ∨ alg = 1 then .next (startContext alg s) else .next (s.raise .algNotFound)

/-! ### UPDATE -/

/-- R165's loop: `n` further full blocks, straight from the payload. -/
def transformBlocks : Nat → List Byte → State → Except Fault State
  | 0, _, s => .ok s
  | n + 1, bytes, s => do
    let s ← transformCtx (bytes.take 64) s
    transformBlocks n (bytes.drop 64) s

/-- How many full blocks follow in the payload once the buffer has been topped up with `room` bytes (R165's loop runs
while `i + 64 <= LEN`). -/
def furtherBlocks (room len : Nat) : Nat := (len - room) / 64

/-- `absorb(index, LEN)` when the payload fills the buffer (R165, `LEN >= room`): top the buffer up, transform it and
every further full block, and leave the tail at address 0 of a buffer that is otherwise unspecified. -/
def absorbBlocks (index : Nat) (data : List Byte) (s : State) : Except Fault State := do
  let room := 64 - index
  let s ← s.memWrite index (data.take room)
  let blk ← s.memRead 0 64
  let s ← transformCtx blk s
  let n := furtherBlocks room data.length
  let s ← transformBlocks n (data.drop room) s
  s.consumeBuffer.memWrite 0 (data.drop (room + 64 * n))

/-- `absorb(index, LEN)` (R165): fill the buffer and transform, or append and return. -/
def absorb (index : Nat) (data : List Byte) (s : State) : Except Fault State :=
  if 64 - index ≤ data.length then absorbBlocks index data s else s.memWrite index data

/-- The effect of an UPDATE that has passed its checks (R163): `index` is the fill before the call, `BITCOUNT` grows by
`8 × LEN`, the payload is absorbed, and `LC` becomes ACCUM. -/
def appendPayload (data : List Byte) (s : State) : Except Fault State := do
  let s' ← absorb s.fill data { s with bitCount := s.bitCount + BitVec.ofNat 64 (8 * data.length) }
  .ok { s' with lc := .accum }

/-- UPDATE (R163): the checks of R240 steps 4 to 6 in their order, then the effect. An UPDATE that is ignored or raises
an error changes nothing but `STATUS.ERR`, and its payload is discarded (R241). -/
def execUpdate (data : List Byte) (s : State) : Host.Outcome State Fault Refusal :=
  if s.err ≠ .none then .next s
  else if s.lc = .uninit ∨ s.lc = .finalized then .next (s.raise .seqErr)
  else if s.bitCount.toNat + 8 * data.length ≥ 2 ^ 64 then .next (s.raise .lenOvf)
  else ofResult (appendPayload data s)

end Sys2Proof.Machine
end

