-- ==== Sys2Proof/Machine/Lookup.lean ====
section
/-! DEFINITION. Lookup.lean: the algorithm descriptor table and LOOKUP (44_algorithm_descriptor.md). -/

namespace Sys2Proof.Machine

/-- `"md5"` in ASCII (R220, D18). -/
def md5Name : List Byte := [0x6d, 0x64, 0x35]

/-- `"sha256"` in ASCII (R220, D18). -/
def sha256Name : List Byte := [0x73, 0x68, 0x61, 0x32, 0x35, 0x36]

/-- A name in the 8-byte `DESC.NAME` field, with zero fill (R33). -/
def nameField (name : List Byte) : List Byte := name ++ zeros (Config.nameBytes - name.length)

/-- The descriptor table: two rows, read-only, the same for every engine instance (R220, R221). Tags 2 and 3 have none
(R225). -/
def descriptorOf (alg : Tag) : Option Descriptor :=
  if alg = 0 then some ⟨0, 16, 88, nameField md5Name⟩
  else if alg = 1 then some ⟨1, 32, 104, nameField sha256Name⟩
  else none

/-- LOOKUP (R222): runs whatever `STATUS.ERR` and `LC` hold. A tag that is not found is a normal outcome: `DESC` is zeroed
and `STATUS.ERR` is not written (D31). -/
def execLookup (alg : Tag) (s : State) : Host.Outcome State Fault Refusal :=
  match descriptorOf alg with
  | some d => .next (s.setDesc d true)
  | none => .next (s.setDesc Descriptor.zero false)

end Sys2Proof.Machine
end

