-- ==== Sys2Proof/Machine/Padding.lean ====
section
/-! DEFINITION. Padding.lean: `padding_state_machine` (43_padding_state_machine.md): FINAL, which pads, runs the last one
or two transforms and emits the digest. -/

namespace Sys2Proof.Machine

/-- `lenfield(alg, v)`: the bit length, little-endian for MD5 and big-endian for SHA-256 (R194). -/
def lenField (alg : Tag) (v : DWord) : Except Fault (List Byte) :=
  if alg = 0 then .ok (le64bytes v) else if alg = 1 then .ok (be64bytes v) else .error (.undefinedAlgorithm alg)

/-- MD5's digest bytes: A, B, C, D, each least significant byte first (R200). -/
def serializeMd5 (w : Md5Words) : List Byte := w.toList.flatMap le32bytes

/-- SHA-256's digest bytes: H0 … H7, each most significant byte first (R200). -/
def serializeSha256 (w : Sha256Words) : List Byte := w.toList.flatMap be32bytes

/-- `serialize(alg, H)` (R200). -/
def serialize (alg : Tag) (h : StateWords) : Except Fault (List Byte) :=
  if alg = 0 then .ok (serializeMd5 h.md5) else if alg = 1 then .ok (serializeSha256 h.sha256)
  else .error (.undefinedAlgorithm alg)

/-- R191 once the marker is written, when no room is left for the length field: zero-pad this block, transform it, and go
on in a fresh zeroed block. -/
def padFullBlock (p : Nat) (s : State) : Except Fault State := do
  let s ← s.memWrite p (zeros (64 - p))
  let blk ← s.memRead 0 64
  let s ← transformCtx blk s
  s.memWrite 0 (zeros 56)

/-- R191 up to the length field: the marker 0x80 at the fill (R192), then zeros up to byte 56 of this block or, when the
position after the marker exceeds 56, of the next one (R193). -/
def padToLength (index : Nat) (s : State) : Except Fault State := do
  let s ← s.memWrite index [0x80]
  let p := index + 1
  if p > 56 then padFullBlock p s else s.memWrite p (zeros (56 - p))

/-- `pad_and_transform()` (R191). -/
def padAndTransform (s : State) : Except Fault State := do
  let s' ← padToLength s.fill s
  let field ← lenField s'.ctxAlg s'.bitCount
  let s' ← s'.memWrite 56 field
  let blk ← s'.memRead 0 64
  transformCtx blk s'

/-- The effect of a FINAL that has passed its checks (R190, R202). The buffer's bytes are unspecified afterwards. -/
def emitDigest (s : State) : Except Fault State := do
  let s' ← padAndTransform s
  let d ← serialize s'.ctxAlg s'.h
  .ok { (s'.setDigest d).consumeBuffer with lc := .finalized }

/-- FINAL (R190): the checks of R240 steps 4 and 5 in their order, then the effect. -/
def execFinal (s : State) : Host.Outcome State Fault Refusal :=
  if s.err ≠ .none then .next s
  else if s.lc = .uninit ∨ s.lc = .finalized then .next (s.raise .seqErr)
  else ofResult (emitDigest s)

end Sys2Proof.Machine
end

