-- ==== Sys2Proof/Machine/Dispatch.lean ====
section
/-! DEFINITION. Dispatch.lean: one arm per row of spec/opcode_table.json, each one call of that instruction's meaning. -/

namespace Sys2Proof.Machine

def exec (i : Instr) (s : State) : Host.Outcome State Fault Refusal :=
  match i with
  | .init alg => Sys2Proof.Machine.execInit alg s
  | .update data => Sys2Proof.Machine.execUpdate data s
  | .final => Sys2Proof.Machine.execFinal s
  | .lookup alg => Sys2Proof.Machine.execLookup alg s
  | .md5Transform st blk => Sys2Proof.Machine.execMd5Transform st blk s
  | .sha256Transform st blk => Sys2Proof.Machine.execSha256Transform st blk s

end Sys2Proof.Machine
end

