-- ==== Sys2Proof/Machine/Port.lean ====
section
/-! DEFINITION. Port.lean: what one engine instance does with each thing the host sends it: a command transaction (R240),
a register read (R34, R53) or hardware reset (R270); and how a transform unit serves a request (R79). -/

namespace Sys2Proof.Machine

/-- The value of logical register `reg` (R34): 0 is `STATUS`, 1 is `DIGEST`, 2 is `DESC`, and no other number exists. -/
def State.register? (s : State) (reg : Nat) : Option RegValue :=
  match reg with
  | 0 => some (.status s.statusWord)
  | 1 => some (.digest s.digest)
  | 2 => some (.desc s.desc)
  | _ => none

/-- A host read: the whole register is returned, and no register of the engine changes (R53, R57). Another register
number returns no value (R34). -/
def hostRead (reg : Nat) (s : State) : Host.Outcome State Fault Refusal :=
  match s.register? reg with
  | some v => .next { s with readData := some v }
  | none => .refused (.noSuchRegister reg)

/-- Hardware reset (R270): every register takes its value of R37, and no byte of the buffer has a specified value. The
host's events that are still to come, the instance's number and the counter `wordDraws` are not the engine's registers and stay
(log entry 11); `byteDraws` advances, since the buffer's bytes become unspecified (log entry 3). -/
def hardwareReset (s : State) : State :=
  { State.reset with inbox := s.inbox, engine := s.engine, wordDraws := s.wordDraws, byteDraws := s.byteDraws + 1 }

/-- A command transaction (R240): step 1 decodes, and an ILLEGAL word raises ILLEGAL_CMD and nothing else (R243). A
transaction whose payload is not the bytes its word announces has no step (R284). -/
def runTransaction (t : Transaction) (s : State) : Host.Outcome State Fault Refusal :=
  match decodeTransaction t with
  | .ok i => exec i s
  | .error (.illegal _) => .next (s.raise .illegalCmd)
  | .error _ => .refused .payloadFraming

/-- A request at the transform units (R79). -/
def runUnitRequest (r : UnitRequest) (s : State) : Host.Outcome State Fault Refusal :=
  match decodeUnit r with
  | .ok i => exec i s
  | .error _ => .refused .unitFraming

/-- One event from the host. -/
def runEvent (e : PortEvent) (s : State) : Host.Outcome State Fault Refusal :=
  match e with
  | .command t => runTransaction t s
  | .read reg => hostRead reg s
  | .reset => .next (hardwareReset s)

/-- The engine's next move: a waiting request of its own first, since a command is atomic (R56); then the oldest event of
the host (R70); with neither, the engine is idle and keeps its state (R256). -/
def nextMove (s : State) : Host.Outcome State Fault Refusal :=
  match s.unitReq with
  | some r => runUnitRequest r { s with unitReq := none }
  | none =>
    match s.inbox with
    | [] => .next s
    | e :: rest => runEvent e { s with inbox := rest }

/-- The state in which an encoded instruction is the next thing to run: a request waits at the transform units, or a
transaction stands first at the command port with no request waiting. -/
def State.withNext (s : State) (e : Encoded) : State :=
  match e with
  | .unit r => { s with unitReq := some r }
  | .command t => { s with unitReq := none, inbox := .command t :: s.inbox }

end Sys2Proof.Machine
end

