-- ==== Sys2Proof/Machine/Step.lean ====
section
/-! DEFINITION. Step.lean: one step of one engine instance, one transaction a step (R20, R56). -/

namespace Sys2Proof.Machine

/-- One step. -/
def step (s : State) : Host.Outcome State Fault Refusal := nextMove s

/-- The state with a word of an opcode-table row placed where `step` takes its next instruction, every operand byte above
its `nbits` bits zero. -/
def State.withFetchWord (s : State) (nbits w : Nat) : State := s.withNext (encodedOfTable nbits w)

end Sys2Proof.Machine
end

