-- ==== Sys2Proof/Machine/HostSide.lean ====
section
/-! DEFINITION. HostSide.lean: the host-side rules the spec keeps (00_scope.md R6): resolving an algorithm name (R224),
rendering a digest in hexadecimal (R203), assembling commands (R80, R81), and when and how much of `DIGEST` the host reads
(R283, R285). The engine does not use this file. -/

namespace Sys2Proof.Machine

/-! ### Names (R224) -/

/-- An ASCII letter in lower case; every other byte unchanged. -/
def asciiLower (b : Byte) : Byte := if 0x41 ≤ b ∧ b ≤ 0x5a then b + 0x20 else b

/-- The tag of a name: `md5` is 0, `sha256` is 1, everything else is not found. `fold` is `NAME_CASE_FOLD`, which is false
unless a host follows §4.3 of the source (R224, C1, D16). -/
def resolveName (fold : Bool) (name : List Byte) : Option Tag :=
  let n := if fold then name.map asciiLower else name
  if n = md5Name then some 0 else if n = sha256Name then some 1 else none

/-! ### Hexadecimal rendering (R203) -/

/-- The lower-case hexadecimal digits. -/
def hexDigits : List Char :=
  ['0', '1', '2', '3', '4', '5', '6', '7', '8', '9', 'a', 'b', 'c', 'd', 'e', 'f']

/-- The two digits of a byte, the most significant nibble first. -/
def hexByte (b : Byte) : List Char := [hexDigits.getD (b.toNat / 16) '0', hexDigits.getD (b.toNat % 16) '0']

/-- The rendering of a byte sequence, in output byte order. -/
def hexRender (bytes : List Byte) : List Char := bytes.flatMap hexByte

/-! ### Reading a digest (R201, R283, R285) -/

/-- `digest_size` of an algorithm (R220). -/
def digestSize (alg : Tag) : Nat :=
  match descriptorOf alg with
  | some d => d.digestSize.toNat
  | none => 0

/-- The digest a host may use: `DIGEST` is valid only while `DIGEST_VALID = 1` and `ERR = NONE` (R283), and the host reads
exactly `digest_size` bytes of it (R285). -/
def State.usableDigest (s : State) : Option (List Byte) :=
  if s.digestValid && s.err == .none then some (s.digest.take (digestSize s.ctxAlg)) else none

/-! ### Assembler (R80, R81) -/

/-- A line of assembly: the four commands, a raw word, and the pseudo-commands of R81. A name operand stands for its
tag. -/
inductive AsmLine where
  | init (alg : Tag)
  | update (bytes : List Byte)
  | final
  | lookup (alg : Tag)
  | word (w : BitVec 32)
  | hash (alg : Tag) (bytes : List Byte)
  | reinit (alg : Tag)
  deriving DecidableEq, Repr

/-- The most bytes one UPDATE carries: 2^24 - 1 (R80). -/
def maxUpdateBytes : Nat := 2 ^ Config.lenBits - 1

/-- A payload cut into pieces of at most `maxUpdateBytes` bytes, in order: `n` full pieces, then the rest. R81 asks only for
pieces of at most that size that cover the payload in order; where the cuts stand is the model's choice. DESIGN CHOICE, safe
for a claim about a digest (R168), log entry 21. -/
def cutPayload : Nat → List Byte → List (List Byte)
  | 0, x => [x]
  | n + 1, x => x.take maxUpdateBytes :: cutPayload n (x.drop maxUpdateBytes)

/-- The pieces an `update` line is split into: one piece, empty too, when it fits one command (R80), and as many as R81 needs
otherwise, cut by `cutPayload` (log entry 21). -/
def updatePieces (bytes : List Byte) : List (List Byte) := cutPayload ((bytes.length - 1) / maxUpdateBytes) bytes

/-- The instructions a line stands for; a raw word stands for none. -/
def AsmLine.instrs : AsmLine → List Instr
  | .init alg => [.init alg]
  | .update bytes => (updatePieces bytes).map .update
  | .final => [.final]
  | .lookup alg => [.lookup alg]
  | .word _ => []
  | .hash alg bytes => .init alg :: (updatePieces bytes).map .update ++ [.final]
  | .reinit alg => [.init alg]

/-- The transaction of an encoded instruction that the host can issue. -/
def transactionOf : Encoded → Option Transaction
  | .command t => some t
  | .unit _ => none

/-- The transactions a line assembles to (R80, R81, R82). -/
def assemble : AsmLine → List Transaction
  | .word w => [⟨w, []⟩]
  | line => line.instrs.filterMap (fun i => transactionOf (encode i))

end Sys2Proof.Machine
end

