-- ==== Sys2Proof/Machine/System.lean ====
section
/-! DEFINITION. System.lean: `N_ENGINES` engine instances side by side (60_exceptions.md R255): each has its own state, and
a schedule in the state says which moves next, since the spec leaves that order open (R255, U17). The instances share only
the descriptor table, which is a constant (R221). -/

namespace Sys2Proof.Machine

/-- Engine instances numbered from 0, and the numbers of the instances that move, next first. -/
structure SystemState where
  engines : List State
  schedule : List Nat
  deriving DecidableEq, Repr

/-- `n` instances, each in its reset state and numbered from 0 (R255), to be run by a schedule. `n` is `N_ENGINES`. -/
def SystemState.reset (n : Nat) (schedule : List Nat) : SystemState :=
  ⟨(List.range n).map (fun k => { State.reset with engine := k }), schedule⟩

/-- The host issues an event to instance `k`: it joins that instance's port and no other (R59). -/
def SystemState.issue (sys : SystemState) (k : Nat) (e : PortEvent) : SystemState :=
  { sys with engines := sys.engines.modify k (fun s => { s with inbox := s.inbox ++ [e] }) }

/-- Instance `k` makes one step; a number with no instance moves nothing. -/
def SystemState.stepEngine (sys : SystemState) (k : Nat) : Host.Outcome SystemState Fault Refusal :=
  match sys.engines[k]? with
  | none => .next sys
  | some e =>
    match step e with
    | .next e' => .next { sys with engines := sys.engines.set k e' }
    | .fault r => .fault r
    | .refused r => .refused r

/-- One step of the system: the instance the schedule names moves; with an empty schedule nothing moves. -/
def SystemState.step (sys : SystemState) : Host.Outcome SystemState Fault Refusal :=
  match sys.schedule with
  | [] => .next sys
  | k :: rest => SystemState.stepEngine { sys with schedule := rest } k

/-- Instances make one step each in the order of a list, stopping at the first fault or refusal. -/
def SystemState.runSchedule : List Nat → SystemState → Host.Outcome SystemState Fault Refusal
  | [], sys => .next sys
  | k :: rest, sys =>
    match sys.stepEngine k with
    | .next sys' => SystemState.runSchedule rest sys'
    | .fault r => .fault r
    | .refused r => .refused r

end Sys2Proof.Machine
end

