-- ==== Sys2Proof/Machine/Message.lean ====
section
/-! DEFINITION. Message.lean: the whole-message form of a digest, which no command computes: the chain over full blocks
(R164), the padding of a message (R196), and what it means that a context has absorbed a message (R164). The engine's
operations do not use this file. -/

namespace Sys2Proof.Machine

/-- The left fold of a block function over the first `n` pieces of 64 bytes of `x` (R164). -/
def chainBlocks {σ : Type} (f : σ → List Byte → σ) : Nat → σ → List Byte → σ
  | 0, st, _ => st
  | n + 1, st, x => chainBlocks f n (f st (x.take 64)) (x.drop 64)

/-- `chain(0, S, X)`: `Transform_MD5` over the full 64-byte pieces of `X`, in order (R164). -/
def chainMd5 (st : Md5Words) (x : List Byte) : Md5Words := chainBlocks transformMd5 (x.length / 64) st x

/-- `chain(1, S, X)`: `Transform_SHA256` over the full 64-byte pieces of `X`, in order (R164). -/
def chainSha256 (st : Sha256Words) (x : List Byte) : Sha256Words := chainBlocks transformSha256 (x.length / 64) st x

/-- One block folded into the state words of the current algorithm: MD5 leaves `H[4..7]` alone (R166). -/
def foldBlock (alg : Tag) (h : StateWords) (blk : List Byte) : StateWords :=
  if alg = 0 then h.withMd5 (transformMd5 h.md5 blk) else StateWords.ofSha256 (transformSha256 h.sha256 blk)

/-- The state words of the current algorithm after folding in the full 64-byte pieces of `x`, in order. -/
def chainCtx (alg : Tag) (h : StateWords) (x : List Byte) : StateWords := chainBlocks (foldBlock alg) (x.length / 64) h x

/-- The bytes of `x` after its full 64-byte pieces: what the buffer holds of a stream (R164). -/
def tailBytes (x : List Byte) : List Byte := x.drop (64 * (x.length / 64))

/-- The number of zero bytes of the padding of an `n`-byte message: `(55 - n) mod 64`, in 0..63 (R196). -/
def padZeros (n : Nat) : Nat := ((55 - (n : Int)) % 64).toNat

/-- `lenfield(alg, v)` (R194) for tags 0 and 1. -/
def lenBytes (alg : Tag) (v : DWord) : List Byte := if alg = 0 then le64bytes v else be64bytes v

/-- `pad(alg, n)` with the length field of the bit count `v`: marker, zeros and bit length (R196). -/
def padBytes (alg : Tag) (n : Nat) (v : DWord) : List Byte := [0x80] ++ zeros (padZeros n) ++ lenBytes alg v

/-- `pad(alg, n)` of an `n`-byte message, whose bit length is `8n` (R196). -/
def pad (alg : Tag) (n : Nat) : List Byte := padBytes alg n (BitVec.ofNat 64 (8 * n))

/-- `Digest(0, M)` (R196): MD5 of a whole message. -/
def digestMd5 (m : List Byte) : List Byte := serializeMd5 (chainMd5 md5Initial (m ++ pad 0 m.length))

/-- `Digest(1, M)` (R196): SHA-256 of a whole message. -/
def digestSha256 (m : List Byte) : List Byte := serializeSha256 (chainSha256 sha256Initial (m ++ pad 1 m.length))

/-- `Digest(alg, M)` (R196) for tags 0 and 1. -/
def digestOf (alg : Tag) (m : List Byte) : List Byte := if alg = 0 then digestMd5 m else digestSha256 m

/-- The 32 bytes of the `DIGEST` register that hold `Digest(alg, M)`, the bytes beyond `digest_size` zero (R32, R201). -/
def digestRegister (alg : Tag) (m : List Byte) : List Byte :=
  digestOf alg m ++ zeros (Config.digestBytes - (digestOf alg m).length)

/-- The state words of the current algorithm are those of the chain over the full blocks of `m` (R164). -/
def State.chained (s : State) (m : List Byte) : Prop :=
  (s.ctxAlg = 0 ∧ s.h.md5 = chainMd5 md5Initial m) ∨ (s.ctxAlg = 1 ∧ s.h.sha256 = chainSha256 sha256Initial m)

/-- The bytes from address `a` on hold exactly the specified values `v`. -/
def State.holds (s : State) (a : Nat) (v : List Byte) : Prop := ∀ k, (hk : k < v.length) → s.buffer.byte? (a + k) = some v[k]

/-- The bytes from address `a` on read as `v`, whether or not they have specified values. -/
def State.reads (s : State) (a : Nat) (v : List Byte) : Prop := ∀ k, (hk : k < v.length) → s.bufferByte (a + k) = v[k]

/-- `BUFFER[0..FILL)`, the unprocessed tail of the stream (R23). -/
def State.pending (s : State) : List Byte := (List.range s.fill).map s.bufferByte

/-- The context has absorbed the message `m` (R164): the state words chain its full blocks, `BITCOUNT` is its length in
bits, and the buffer holds its tail from address 0. -/
def State.Absorbed (s : State) (m : List Byte) : Prop :=
  s.chained m ∧ s.bitCount.toNat = 8 * m.length ∧ s.holds 0 (tailBytes m)

end Sys2Proof.Machine
end

