-- ==== Sys2Proof/Safety.lean ====
section
/-! DEFINITION. Safety.lean: what the rules say of every state between two commands (10_state.md R36 and the legal values of
R29), and the words claims use for runs. -/

namespace Sys2Proof.Machine

/-- A context that takes UPDATE and FINAL: `LC` is FRESH or ACCUM (R240 step 5). -/
def State.Open (s : State) : Prop := s.lc = .fresh ∨ s.lc = .accum

/-- The state words of the current algorithm are the initial ones (R36 (c)). -/
def State.AtInitialWords (s : State) : Prop :=
  (s.ctxAlg = 0 ∧ s.h.md5 = md5Initial) ∨ (s.ctxAlg = 1 ∧ s.h.sha256 = sha256Initial)

/-- What holds in every state between two commands, of the registers alone. -/
structure State.Inv (s : State) : Prop where
  /-- The buffer has its canonical form. -/
  bufferWf : s.buffer.wf = true
  /-- R36 (a): `BITCOUNT mod 8 = 0`. -/
  wholeBytes : s.bitCount.toNat % 8 = 0
  /-- R36 (b) and R29: `CTX_ALG` takes 0 or 1. -/
  algLegal : s.ctxAlg = 0 ∨ s.ctxAlg = 1
  /-- R29: `CTX_ALG` is 0 while no context exists. -/
  noContextAlg : s.lc = .uninit → s.ctxAlg = 0
  /-- R36 (c). -/
  freshStart : s.lc = .fresh → s.bitCount = 0 ∧ s.AtInitialWords
  /-- R36 (d): `DIGEST_VALID = 1` exactly when `LC = FINALIZED`. -/
  digestFlag : s.digestValid = true ↔ s.lc = .finalized
  /-- R32: `DIGEST` is all zero until a FINAL succeeds. -/
  digestClear : s.digestValid = false → s.digest = zeros Config.digestBytes
  /-- R32: `DIGEST` has 32 bytes. -/
  digestWidth : s.digest.length = Config.digestBytes
  /-- R24: while the context is open, every byte below `FILL` has a specified value. -/
  tailHeld : s.Open → ∀ a, a < s.fill → (s.buffer.byte? a).isSome = true
  /-- R33: `DESC` is a row of the descriptor table while `DESC_VALID = 1`, and all zero otherwise. -/
  descRow : if s.descValid then ∃ alg, descriptorOf alg = some s.desc else s.desc = Descriptor.zero

/-- R36 (e) and (f), with the digest of R196: some message accounts for the context. Nothing in the state records it. -/
structure State.MessageInv (s : State) : Prop where
  /-- A FRESH context has absorbed the empty message. -/
  fresh : s.lc = .fresh → s.Absorbed []
  /-- An ACCUM context has absorbed some message. -/
  accum : s.lc = .accum → ∃ m, s.Absorbed m
  /-- A FINALIZED context shows the digest of a message whose bit length `BITCOUNT` holds. -/
  finalized : s.lc = .finalized → ∃ m, s.bitCount.toNat = 8 * m.length ∧ s.digest = digestRegister s.ctxAlg m

/-- The engine is between two commands: no request of its own waits at the transform units (R56, R79). -/
def State.Quiescent (s : State) : Prop := s.unitReq = none

/-- The instructions run one after the other on one engine instance, stopping at the first fault or refusal. -/
def runInstrs : List Instr → State → Host.Outcome State Fault Refusal
  | [], s => .next s
  | i :: rest, s =>
    match exec i s with
    | .next s' => runInstrs rest s'
    | .fault r => .fault r
    | .refused r => .refused r

/-- What one instruction does to the message R164 speaks of: a successful INIT empties it, and an UPDATE that passes its
checks appends its payload. -/
def messageAfter (i : Instr) (s : State) (m : List Byte) : List Byte :=
  match i with
  | .init alg => if alg = 0 ∨ alg = 1 then [] else m
  | .update data =>
    if s.err = .none ∧ (s.lc = .fresh ∨ s.lc = .accum) ∧ s.bitCount.toNat + 8 * data.length < 2 ^ 64 then m ++ data else m
  | .final => m
  | .lookup _ => m
  | .md5Transform _ _ => m
  | .sha256Transform _ _ => m

/-- The message R164 speaks of, along a run from a context that has absorbed `m`. -/
def messageAlong : List Instr → State → List Byte → List Byte
  | [], _, m => m
  | i :: rest, s, m =>
    match exec i s with
    | .next t => messageAlong rest t (messageAfter i s m)
    | .fault _ => m
    | .refused _ => m

/-- One job (R15): INIT, an UPDATE for each chunk, FINAL. -/
def job (alg : Tag) (chunks : List (List Byte)) : List Instr := .init alg :: chunks.map .update ++ [.final]

/-- A safe outcome: no fault. -/
def Safe (o : Host.Outcome State Fault Refusal) : Prop := ∀ r, o ≠ .fault r

end Sys2Proof.Machine
end

