-- ==== Sys2Proof/Certificates/Slice0/Obligations.lean ====
section
/-! DEFINITION. Obligations.lean: the statements about the model, in the order of the spec's files: encoding, steps and the
host's port, reset, INIT, UPDATE, FINAL, LOOKUP, the transforms, errors, invariants, whole messages, host side, instances. -/

open Sys2Proof Sys2Proof.Machine

/-! ### Encoding (30_encoding.md) -/

/-- R82, every sample encoding: what each line assembles to, how the words decode, what `init #2` raises. -/
def Obligations.SampleEncodings : Prop :=
  assemble (.init 0) = [⟨0x00000001, []⟩] ∧
  assemble (.init 1) = [⟨0x00000011, []⟩] ∧
  assemble (.init 2) = [⟨0x00000021, []⟩] ∧
  decodeTransaction ⟨0x00000021, []⟩ = .ok (.init 2) ∧
  (∀ s : State, exec (.init 2) s = .next (s.raise .algNotFound)) ∧
  assemble (.update [0x61, 0x62, 0x63]) = [⟨0x00000302, [0x61, 0x62, 0x63]⟩] ∧
  assemble (.update []) = [⟨0x00000002, []⟩] ∧
  (∀ bytes : List Byte, bytes.length = 65 → assemble (.update bytes) = [⟨0x00004102, bytes⟩]) ∧
  assemble .final = [⟨0x00000003, []⟩] ∧
  assemble (.lookup 1) = [⟨0x00000014, []⟩] ∧
  (∀ w : BitVec 32, w = 0x00000000 ∨ w = 0x00000005 ∨ w = 0x00000013 ∨ w = 0x00000101 →
    assemble (.word w) = [⟨w, []⟩] ∧ ∃ why, decodeWord w = .error why)

/-- R76: `decode` as a total function of the 32-bit word, case by case, and the two sentences about ILLEGAL behind it. -/
def Obligations.DecodeWordIsTotalFunctionOfFields : Prop :=
  ∀ w : BitVec 32,
    let op := w.extractLsb' 0 4
    let alg := w.extractLsb' 4 2
    let rsv := w.extractLsb' 6 2
    let len := w.extractLsb' 8 24
    (op = 1 ∧ rsv = 0 ∧ len = 0 → decodeWord w = .ok (.init alg)) ∧
    (op = 2 ∧ alg = 0 ∧ rsv = 0 → decodeWord w = .ok (.update len)) ∧
    (op = 3 ∧ alg = 0 ∧ rsv = 0 ∧ len = 0 → decodeWord w = .ok .final) ∧
    (op = 4 ∧ rsv = 0 ∧ len = 0 → decodeWord w = .ok (.lookup alg)) ∧
    (¬ (op = 1 ∧ rsv = 0 ∧ len = 0) ∧ ¬ (op = 2 ∧ alg = 0 ∧ rsv = 0) ∧ ¬ (op = 3 ∧ alg = 0 ∧ rsv = 0 ∧ len = 0) ∧
      ¬ (op = 4 ∧ rsv = 0 ∧ len = 0) →
      (∃ why, decodeWord w = .error why) ∧ ∀ s : State, runTransaction ⟨w, []⟩ s = .next (s.raise .illegalCmd))

/-- R75: a word is well-formed exactly when its `OP` is 1 to 4 and the fields the table marks are zero; the table's matches
and masks; a word that selects a row by match and mask decodes to that row's command and the other way round; and at most one
row matches any word. -/
def Obligations.TableRowsAgreeWithDecoder : Prop :=
  (∀ alg, (Command.init alg).row = (0x00000001, 0xFFFFFFCF)) ∧ (∀ len, (Command.update len).row = (0x00000002, 0x000000FF)) ∧
  Command.final.row = (0x00000003, 0xFFFFFFFF) ∧ (∀ alg, (Command.lookup alg).row = (0x00000004, 0xFFFFFFCF)) ∧
  ∀ w : BitVec 32,
    ((∃ c, decodeWord w = .ok c) ↔ w.extractLsb' 6 2 = (0 : BitVec 2) ∧
      ((w.extractLsb' 0 4 = (1 : BitVec 4) ∧ w.extractLsb' 8 24 = (0 : BitVec 24)) ∨
       (w.extractLsb' 0 4 = (2 : BitVec 4) ∧ w.extractLsb' 4 2 = (0 : BitVec 2)) ∨
       (w.extractLsb' 0 4 = (3 : BitVec 4) ∧ w.extractLsb' 4 2 = (0 : BitVec 2) ∧ w.extractLsb' 8 24 = (0 : BitVec 24)) ∨
       (w.extractLsb' 0 4 = (4 : BitVec 4) ∧ w.extractLsb' 8 24 = (0 : BitVec 24)))) ∧
    (∀ c, decodeWord w = .ok c → w &&& c.row.2 = c.row.1) ∧
    (∀ c : Command, w &&& c.row.2 = c.row.1 → ∃ d, decodeWord w = .ok d ∧ d.row = c.row) ∧
    (∀ c d : Command, w &&& c.row.2 = c.row.1 → w &&& d.row.2 = d.row.1 → c.row = d.row)

/-- No bit of an encoding is dropped: decoding the encoding of a well-formed instruction gives the instruction. -/
def Obligations.DecodeOfEncode : Prop := ∀ i : Instr, i.wellFormed = true → decode (encode i) = .ok i

/-- Each encoding has one meaning: whatever decodes to `i` is the encoding of `i`, and `i` is well-formed. -/
def Obligations.EncodeOfDecode : Prop := ∀ (e : Encoded) (i : Instr), decode e = .ok i → encode i = e ∧ i.wellFormed = true

/-- R12: `le32bytes` is the inverse of `LE32`, and `be32bytes` of `BE32`, in both directions. -/
def Obligations.BytePackingInverse : Prop :=
  (∀ w : Word, le32 (wordByte w 0) (wordByte w 1) (wordByte w 2) (wordByte w 3) = w) ∧
  (∀ w : Word, be32 (wordByte w 3) (wordByte w 2) (wordByte w 1) (wordByte w 0) = w) ∧
  (∀ b0 b1 b2 b3 : Byte, le32bytes (le32 b0 b1 b2 b3) = [b0, b1, b2, b3]) ∧
  (∀ b0 b1 b2 b3 : Byte, be32bytes (be32 b0 b1 b2 b3) = [b0, b1, b2, b3])

/-! ### Steps and the host's port (20_memory.md, 30_encoding.md R70, R79) -/

/-- A step runs the decoded instruction: the transaction at the port, a request at the transform units, and a table word
placed by `withFetchWord`. Around `exec` a step takes the transaction or the request and nothing else. The port as a list is
the model's choice, log entry 1; that a waiting request runs first, whatever the port holds, is log entry 7; how a table word is
placed is log entries 1 and 17. -/
def Obligations.StepRunsDecodedInstruction : Prop :=
  (∀ (s : State) (t : Transaction) (rest : List PortEvent) (i : Instr), s.unitReq = none → s.inbox = .command t :: rest → decodeTransaction t = .ok i →
    step s = exec i { s with inbox := rest }) ∧
  (∀ (s : State) (r : UnitRequest) (i : Instr), s.unitReq = some r → decodeUnit r = .ok i → step s = exec i { s with unitReq := none }) ∧
  (∀ (s : State) (nbits w : Nat) (i : Instr), decodeTableWord nbits w = some i → step (s.withFetchWord nbits w) = exec i { s with unitReq := none })

/-- R243: every command word that decodes to ILLEGAL, by its fields, raises ILLEGAL_CMD and changes nothing else. -/
def Obligations.IllegalWordRaisesIllegalCmd : Prop :=
  ∀ (s : State) (w : BitVec 32) (rest : List PortEvent),
    s.unitReq = none → s.inbox = .command ⟨w, []⟩ :: rest →
    (w.extractLsb' 0 4 = (0 : BitVec 4) ∨ (5 : BitVec 4) ≤ w.extractLsb' 0 4 ∨ w.extractLsb' 6 2 ≠ (0 : BitVec 2) ∨
      ((w.extractLsb' 0 4 = (2 : BitVec 4) ∨ w.extractLsb' 0 4 = (3 : BitVec 4)) ∧ w.extractLsb' 4 2 ≠ (0 : BitVec 2)) ∨
      ((w.extractLsb' 0 4 = (1 : BitVec 4) ∨ w.extractLsb' 0 4 = (3 : BitVec 4) ∨ w.extractLsb' 0 4 = (4 : BitVec 4)) ∧
        w.extractLsb' 8 24 ≠ (0 : BitVec 24))) →
    step s = .next { s with inbox := rest, err := if s.err = .none then .illegalCmd else s.err } ∧
    ErrCode.illegalCmd.code = 1

/-- R284: a transaction with fewer or more payload bytes than its word announces has no step. That an ill-formed word
announces none is R76; that bytes behind one are refused too is the model's choice, log entry 6. -/
def Obligations.WrongPayloadLengthHasNoStep : Prop :=
  ∀ (s : State) (t : Transaction) (rest : List PortEvent), s.unitReq = none → s.inbox = .command t :: rest →
    (∀ c, decodeWord t.word = .ok c → t.payload.length ≠ c.payloadLength → step s = .refused .payloadFraming) ∧
    (∀ why, decodeWord t.word = .error why → t.payload ≠ [] → step s = .refused .payloadFraming)

/-- Host reads return the whole register, change no register of the engine, and exist for numbers 0, 1 and 2 only. That a
read is a step with a returned value in `readData` is the model's form, log entry 10. -/
def Obligations.HostReadsReturnRegister : Prop :=
  ∀ (s : State) (n : Nat) (rest : List PortEvent), s.unitReq = none → s.inbox = .read n :: rest →
    (n = 0 → step s = .next { s with inbox := rest, readData := some (.status s.statusWord) }) ∧
    (n = 1 → step s = .next { s with inbox := rest, readData := some (.digest s.digest) }) ∧
    (n = 2 → step s = .next { s with inbox := rest, readData := some (.desc s.desc) }) ∧
    (3 ≤ n → step s = .refused (.noSuchRegister n))

/-- Between transactions the engine is idle with its state kept: with no event and no request, a step changes nothing. -/
def Obligations.IdleStepKeepsState : Prop := ∀ s : State, s.unitReq = none → s.inbox = [] → step s = .next s

/-- R50: `MemRead` and `MemWrite` on the buffer, and no instruction in any state makes an access outside 0..63. -/
def Obligations.BufferAccesses : Prop :=
  (∀ (s : State) (a n : Nat), a + n ≤ 64 → ∃ v, s.memRead a n = .ok v ∧ v.length = n ∧ s.reads a v) ∧
  (∀ (s : State) (a : Nat) (v : List Byte), a + v.length ≤ 64 → ∃ t, s.memWrite a v = .ok t ∧
    t = { s with buffer := t.buffer } ∧ t.holds a v ∧
    ∀ x, x < a ∨ a + v.length ≤ x → t.bufferByte x = s.bufferByte x) ∧
  (∀ (i : Instr) (s : State) (a : Nat), exec i s ≠ .fault (.outsideBuffer a))

/-! ### Status and reset (10_state.md, 70_reset_and_hazards.md) -/

/-- The fields of the `STATUS` word, with the codes of `LC` and `ERR`, and the legal values in every state that satisfies
the invariant. -/
def Obligations.StatusWordFields : Prop :=
  (∀ s : State,
    s.statusWord.extractLsb' 0 2 = s.lc.code ∧
    s.statusWord.extractLsb' 2 2 = (if s.lc = .uninit then 0 else s.ctxAlg) ∧
    s.statusWord.extractLsb' 4 3 = s.err.code ∧
    s.statusWord.extractLsb' 7 1 = BitVec.ofBool s.digestValid ∧
    s.statusWord.extractLsb' 8 1 = BitVec.ofBool s.descValid ∧
    s.statusWord.extractLsb' 9 23 = (0 : BitVec 23)) ∧
  [Lifecycle.uninit, .fresh, .accum, .finalized].map Lifecycle.code = [0, 1, 2, 3] ∧
  [ErrCode.none, .illegalCmd, .algNotFound, .seqErr, .lenOvf].map ErrCode.code = [0, 1, 2, 3, 4] ∧
  (∀ s : State, s.Inv → (s.statusWord.extractLsb' 2 2).toNat ≤ 1 ∧ (s.statusWord.extractLsb' 4 3).toNat ≤ 4)

/-- R37: the values after hardware reset that the rule specifies, in the initial state and after a reset event in any
state. `H`, `BITCOUNT` and the buffer's bytes are unspecified there, and nothing is said of them. -/
def Obligations.ResetValues : Prop :=
  (∀ t : State, (t = State.reset ∨ ∃ s rest, s.unitReq = none ∧ s.inbox = .reset :: rest ∧ step s = .next t) →
    t.lc = .uninit ∧ t.ctxAlg = 0 ∧ t.err = .none ∧ t.digestValid = false ∧ t.descValid = false ∧
    t.digest = List.replicate 32 0 ∧ t.desc = ⟨0, 0, 0, List.replicate 8 0⟩ ∧ t.statusWord = 0) ∧
  (∀ (s : State) (rest : List PortEvent), s.unitReq = none → s.inbox = .reset :: rest →
    ∃ t, step s = .next t)

/-- Hardware reset leaves the reset state but for what is no register of R20: the events behind it at the port, the number of
the instance, and the model's own counter `wordDraws` stay. Nothing is said of `byteDraws`, the counter of log entry 3. That
the events, the number and `wordDraws` stay, and that the interface fields are cleared, is the model's choice, log entry 11; the
zeros in `H` and `BITCOUNT` are log entry 4. -/
def Obligations.HardwareResetKeepsLaterEvents : Prop :=
  ∀ (s : State) (rest : List PortEvent), s.unitReq = none → s.inbox = .reset :: rest →
    ∃ t, step s = .next t ∧
      t = { State.reset with inbox := rest, engine := s.engine, wordDraws := s.wordDraws, byteDraws := t.byteDraws }

/-! ### INIT (42_digest_context_buffer_engine.md) -/

/-- INIT with tag 0 or 1 completes in every state, loads the initial words, empties the context and clears the errors and
the digest. `H[4..7]` of an MD5 context are unspecified, so nothing is said of them; the counter `wordDraws` is the model's
own (log entry 2). Everything else, the buffer's bytes, `DESC` and `DESC_VALID` among it, is unchanged. -/
def Obligations.InitStartsContext : Prop :=
  ∀ (s : State) (alg : Tag), alg = 0 ∨ alg = 1 →
    ∃ t, exec (.init alg) s = .next t ∧
      t = { s with h := t.h, wordDraws := t.wordDraws, ctxAlg := alg, bitCount := 0, lc := .fresh, err := .none,
                   digestValid := false, digest := List.replicate 32 0 } ∧
      (alg = 0 → t.h.md5 = ⟨0x67452301, 0xefcdab89, 0x98badcfe, 0x10325476⟩) ∧
      (alg = 1 → t.h.sha256 = ⟨0x6a09e667, 0xbb67ae85, 0x3c6ef372, 0xa54ff53a, 0x510e527f, 0x9b05688c, 0x1f83d9ab,
        0x5be0cd19⟩) ∧
      t.fill = 0 ∧ ∀ a, t.bufferByte a = s.bufferByte a

/-- R244: INIT with tag 2 or 3 records ALG_NOT_FOUND (code 2) and leaves everything else unchanged. From there UPDATE and
FINAL change nothing, and a run without a successful INIT makes no progress. -/
def Obligations.InitUnknownTagRaisesAlgNotFound : Prop :=
  ∀ (s : State) (alg : Tag), alg = 2 ∨ alg = 3 →
    ∃ t, exec (.init alg) s = .next t ∧
      t = { s with err := if s.err = .none then .algNotFound else s.err } ∧
      (s.err = .none → t.statusWord.extractLsb' 4 3 = (2 : BitVec 3)) ∧
      (∀ data, exec (.update data) t = .next t) ∧ exec .final t = .next t ∧
      ∀ (is : List Instr) (u : State), (∀ a, .init a ∈ is → a = 2 ∨ a = 3) → runInstrs is t = .next u →
        u.h = s.h ∧ u.bitCount = s.bitCount ∧ u.buffer = s.buffer ∧ u.lc = s.lc ∧ u.ctxAlg = s.ctxAlg ∧ u.digest = s.digest

/-- INIT with the same tag twice in a row leaves the state one INIT leaves, apart from the words it leaves unspecified and
the model's own counter of them. -/
def Obligations.InitTwiceIsInitOnce : Prop :=
  ∀ (s t : State) (alg : Tag), alg = 0 ∨ alg = 1 → exec (.init alg) s = .next t →
    ∃ u, exec (.init alg) t = .next u ∧ u = { t with h := u.h, wordDraws := u.wordDraws } ∧ u.h.md5 = t.h.md5 ∧
      (alg = 1 → u = t)

/-! ### UPDATE (42_digest_context_buffer_engine.md) -/

/-- UPDATE of fewer bytes than the buffer has room for completes, writes them at the fill, and changes nothing else but
`BITCOUNT` and `LC`: no transform runs, `H` is unchanged, and every other byte of the buffer reads as before (beyond the fill
that is the model's reading of R165, log entry 3). -/
def Obligations.ShortUpdateAppends : Prop :=
  ∀ (s : State) (data : List Byte), s.err = .none → s.Open → s.bitCount.toNat + 8 * data.length < 2 ^ 64 →
    data.length < 64 - s.fill →
    ∃ t, exec (.update data) s = .next t ∧
      t = { s with bitCount := t.bitCount, buffer := t.buffer, lc := .accum } ∧
      t.bitCount.toNat = s.bitCount.toNat + 8 * data.length ∧
      t.fill = s.fill + data.length ∧
      t.holds s.fill data ∧
      ∀ a, a < s.fill ∨ s.fill + data.length ≤ a → t.bufferByte a = s.bufferByte a

/-- UPDATE that fills the buffer completes: the state words chain the full blocks of the pending bytes and the payload, and
the buffer holds exactly the tail that is left, every other byte unspecified. Nothing else changes but `BITCOUNT`, `LC` and
the model's own counter `byteDraws` (log entry 3). -/
def Obligations.LongUpdateTransforms : Prop :=
  ∀ (s : State) (data : List Byte), s.err = .none → s.Open → s.bitCount.toNat + 8 * data.length < 2 ^ 64 →
    (s.ctxAlg = 0 ∨ s.ctxAlg = 1) → 64 - s.fill ≤ data.length →
    ∃ t, exec (.update data) s = .next t ∧
      t = { s with h := t.h, bitCount := t.bitCount, buffer := t.buffer, lc := .accum, byteDraws := t.byteDraws } ∧
      t.h = chainCtx s.ctxAlg s.h (s.pending ++ data) ∧
      t.bitCount.toNat = s.bitCount.toNat + 8 * data.length ∧
      t.fill = (tailBytes (s.pending ++ data)).length ∧
      t.holds 0 (tailBytes (s.pending ++ data)) ∧
      ∀ a, t.fill ≤ a → t.buffer.byte? a = none

/-- R171: a successful UPDATE from fill `f` runs exactly `floor((f + LEN) / 64)` transforms, and leaves the fill
`(f + LEN) mod 64`. -/
def Obligations.UpdateTransformCount : Prop :=
  ∀ (s : State) (data : List Byte), s.err = .none → s.Open → s.bitCount.toNat + 8 * data.length < 2 ^ 64 →
    (s.ctxAlg = 0 ∨ s.ctxAlg = 1) →
    ∃ t, exec (.update data) s = .next t ∧
      t.h = chainBlocks (foldBlock s.ctxAlg) ((s.fill + data.length) / 64) s.h (s.pending ++ data) ∧
      t.fill = (s.fill + data.length) % 64

/-- An UPDATE of no bytes that passes its checks changes `LC` to ACCUM and nothing else (R170), and the FINAL or the UPDATE
after it does exactly what it would have done. For the digest and every specified value this is R170's "no effect on the
digest". The last two clauses compare two runs, so they also equate the buffer bytes left unspecified in them: that those agree
is the model's choice, DESIGN CHOICE, log entry 20. -/
def Obligations.EmptyUpdateOnlyEntersAccum : Prop :=
  ∀ s : State, s.err = .none → s.Open →
    exec (.update []) s = .next { s with lc := .accum } ∧ exec .final { s with lc := .accum } = exec .final s ∧
    ∀ data : List Byte, s.bitCount.toNat + 8 * data.length < 2 ^ 64 →
      exec (.update data) { s with lc := .accum } = exec (.update data) s

/-- R245: an UPDATE that would take `BITCOUNT` to 2^64 records LEN_OVF (code 4), changes nothing else, and leaves no digest a
host may use. -/
def Obligations.LengthOverflowIsRefused : Prop :=
  ∀ (s : State) (data : List Byte), s.err = .none → s.Open → 2 ^ 64 ≤ s.bitCount.toNat + 8 * data.length →
    exec (.update data) s = .next { s with err := .lenOvf } ∧ ErrCode.lenOvf.code = 4 ∧
    State.usableDigest { s with err := .lenOvf } = none

/-! ### FINAL (43_padding_state_machine.md) -/

/-- FINAL in an open context completes: the state words chain the pending bytes and their padding, the digest is their
serialisation with zeros behind it, and the context is spent. `BITCOUNT`, `CTX_ALG`, `ERR`, `DESC` and everything not named
are unchanged; no byte of the buffer has a specified value any more. -/
def Obligations.FinalEmitsDigest : Prop :=
  ∀ s : State, s.err = .none → s.Open → (s.ctxAlg = 0 ∨ s.ctxAlg = 1) →
    ∃ t, exec .final s = .next t ∧
      t = { s with h := t.h, buffer := [], byteDraws := t.byteDraws, lc := .finalized, digestValid := true,
                   digest := t.digest } ∧
      t.h = chainCtx s.ctxAlg s.h (s.pending ++ padBytes s.ctxAlg s.fill s.bitCount) ∧
      (s.ctxAlg = 0 → t.digest = le32bytes t.h.h0 ++ le32bytes t.h.h1 ++ le32bytes t.h.h2 ++ le32bytes t.h.h3 ++
        List.replicate 16 0) ∧
      (s.ctxAlg = 1 → t.digest = be32bytes t.h.h0 ++ be32bytes t.h.h1 ++ be32bytes t.h.h2 ++ be32bytes t.h.h3 ++
        be32bytes t.h.h4 ++ be32bytes t.h.h5 ++ be32bytes t.h.h6 ++ be32bytes t.h.h7)

/-- R195: FINAL runs one transform from a fill of 0..55, with `55 - FILL` zero bytes and `64 - FILL` bytes of padding, and
two from 56..63, with `119 - FILL` and `128 - FILL`. The marker stands right behind the pending bytes, at the fill, which is
the message's length modulo 64. -/
def Obligations.FinalTransformCount : Prop :=
  ∀ s : State, s.err = .none → s.Open → (s.ctxAlg = 0 ∨ s.ctxAlg = 1) →
    ∃ t field, exec .final s = .next t ∧ field.length = 8 ∧
      (s.fill ≤ 55 → t.h = chainBlocks (foldBlock s.ctxAlg) 1 s.h
        (s.pending ++ [0x80] ++ List.replicate (55 - s.fill) 0 ++ field) ∧
        ([0x80] ++ List.replicate (55 - s.fill) 0 ++ field : List Byte).length = 64 - s.fill) ∧
      (56 ≤ s.fill → t.h = chainBlocks (foldBlock s.ctxAlg) 2 s.h
        (s.pending ++ [0x80] ++ List.replicate (119 - s.fill) 0 ++ field) ∧
        ([0x80] ++ List.replicate (119 - s.fill) 0 ++ field : List Byte).length = 128 - s.fill) ∧
      s.pending.length = s.fill ∧ ∀ m, s.Absorbed m → s.fill = m.length % 64

/-- R194: the last eight bytes of the blocks FINAL transforms, which are bytes 56..63 of the last one, are `BITCOUNT`, least
significant byte first for MD5 and most significant byte first for SHA-256; with the rule's example. -/
def Obligations.LengthFieldByteOrder : Prop :=
  (∀ s : State, s.err = .none → s.Open → (s.ctxAlg = 0 ∨ s.ctxAlg = 1) →
    ∃ t z field, exec .final s = .next t ∧ field.length = 8 ∧ (s.pending ++ [0x80] ++ zeros z ++ field).length % 64 = 0 ∧
      t.h = chainCtx s.ctxAlg s.h (s.pending ++ [0x80] ++ zeros z ++ field) ∧
      (s.ctxAlg = 0 → ∀ k, k < 8 → field.getD k 0 = s.bitCount.extractLsb' (8 * k) 8) ∧
      (s.ctxAlg = 1 → ∀ k, k < 8 → field.getD k 0 = s.bitCount.extractLsb' (8 * (7 - k)) 8)) ∧
  lenField 0 24 = .ok [0x18, 0, 0, 0, 0, 0, 0, 0] ∧ lenField 1 24 = .ok [0, 0, 0, 0, 0, 0, 0, 0x18]

/-! ### LOOKUP (44_algorithm_descriptor.md) -/

/-- LOOKUP completes in every state for every tag, and changes `DESC` and `DESC_VALID` only: the table's row for tags 0 and
1, all zero and not found for tags 2 and 3. -/
def Obligations.LookupWritesDescriptor : Prop :=
  ∀ s : State,
    exec (.lookup 0) s = .next { s with desc := ⟨0, 16, 88, [0x6d, 0x64, 0x35, 0, 0, 0, 0, 0]⟩, descValid := true } ∧
    exec (.lookup 1) s =
      .next { s with desc := ⟨1, 32, 104, [0x73, 0x68, 0x61, 0x32, 0x35, 0x36, 0, 0]⟩, descValid := true } ∧
    exec (.lookup 2) s = .next { s with desc := ⟨0, 0, 0, List.replicate 8 0⟩, descValid := false } ∧
    exec (.lookup 3) s = .next { s with desc := ⟨0, 0, 0, List.replicate 8 0⟩, descValid := false }

/-- LOOKUP in the middle of a job does not disturb it: whatever an instruction does to a state, it does after a LOOKUP too,
but for `DESC` and `DESC_VALID`. For the specified state this is R222, which writes nothing else. The statement compares two
runs, so it also equates the unspecified values they draw, `H[4..7]` after INIT of MD5 and unspecified bytes of the buffer: that
they agree is no rule of the spec but the model's choice, DESIGN CHOICE, log entry 20. -/
def Obligations.LookupDoesNotDisturbJob : Prop :=
  ∀ (alg : Tag) (i : Instr) (s t u : State), exec (.lookup alg) s = .next t → exec i s = .next u →
    ∃ v, exec i t = .next v ∧ { v with desc := u.desc, descValid := u.descValid } = u

/-! ### The transforms (40_md5_block_transform.md, 41_sha256_block_transform.md) -/

/-- MD5_TRANSFORM completes on every block of 64 bytes, returns the state words plus the working variables after 64 rounds,
and writes no register. The rounds start from the state words and follow R112, with R101's functions, R102's table (its 64
values are listed), R103's amounts and R104's indices. That the words returned stand in `unitReply` is log entry 7; the
table's and the functions' source is log entry 15. -/
def Obligations.Md5TransformReturnsWords : Prop :=
  (List.range 64).map md5K =
    [0xd76aa478, 0xe8c7b756, 0x242070db, 0xc1bdceee, 0xf57c0faf, 0x4787c62a, 0xa8304613, 0xfd469501] ++
    [0x698098d8, 0x8b44f7af, 0xffff5bb1, 0x895cd7be, 0x6b901122, 0xfd987193, 0xa679438e, 0x49b40821] ++
    [0xf61e2562, 0xc040b340, 0x265e5a51, 0xe9b6c7aa, 0xd62f105d, 0x02441453, 0xd8a1e681, 0xe7d3fbc8] ++
    [0x21e1cde6, 0xc33707d6, 0xf4d50d87, 0x455a14ed, 0xa9e3e905, 0xfcefa3f8, 0x676f02d9, 0x8d2a4c8a] ++
    [0xfffa3942, 0x8771f681, 0x6d9d6122, 0xfde5380c, 0xa4beea44, 0x4bdecfa9, 0xf6bb4b60, 0xbebfbc70] ++
    [0x289b7ec6, 0xeaa127fa, 0xd4ef3085, 0x04881d05, 0xd9d4d039, 0xe6db99e5, 0x1fa27cf8, 0xc4ac5665] ++
    [0xf4292244, 0x432aff97, 0xab9423a7, 0xfc93a039, 0x655b59c3, 0x8f0ccc92, 0xffeff47d, 0x85845dd1] ++
    [0x6fa87e4f, 0xfe2ce6e0, 0xa3014314, 0x4e0811a1, 0xf7537e82, 0xbd3af235, 0x2ad7d2bb, 0xeb86d391] ∧
  ∀ (st : Md5Words) (blk : List Byte) (s : State), blk.length = 64 →
    (let v := md5Rounds 64 st blk
     exec (.md5Transform st blk) s =
       .next { s with unitReply := some [st.a + v.a, st.b + v.b, st.c + v.c, st.d + v.d] }) ∧
    md5Rounds 0 st blk = st ∧
    ∀ i, i < 64 →
      let v := md5Rounds i st blk
      let f := if i < 16 then (v.b &&& v.c) ||| (~~~v.b &&& v.d) else if i < 32 then (v.b &&& v.d) ||| (v.c &&& ~~~v.d)
        else if i < 48 then v.b ^^^ v.c ^^^ v.d else v.c ^^^ (v.b ||| ~~~v.d)
      let g := if i < 16 then i else if i < 32 then (5 * i + 1) % 16 else if i < 48 then (3 * i + 5) % 16 else (7 * i) % 16
      let r := if i < 16 then [7, 12, 17, 22].getD (i % 4) 0 else if i < 32 then [5, 9, 14, 20].getD (i % 4) 0
        else if i < 48 then [4, 11, 16, 23].getD (i % 4) 0 else [6, 10, 15, 21].getD (i % 4) 0
      let m := le32 (blk.getD (4 * g) 0) (blk.getD (4 * g + 1) 0) (blk.getD (4 * g + 2) 0) (blk.getD (4 * g + 3) 0)
      md5Rounds (i + 1) st blk = ⟨v.d, v.b + rotl32 (v.a + f + md5K i + m) r, v.b, v.c⟩

/-- SHA256_TRANSFORM completes on every block of 64 bytes, returns the state words plus the working variables after 64
rounds, and writes no register. The rounds start from the state words and follow R143, with R131's and R132's functions and
R134's table (its 64 values are listed), over a schedule that is R141's words and R142's recurrence. That the words returned
stand in `unitReply` is log entry 7; the table's and the functions' source is log entry 15. -/
def Obligations.Sha256TransformReturnsWords : Prop :=
  (List.range 64).map shaK =
    [0x428a2f98, 0x71374491, 0xb5c0fbcf, 0xe9b5dba5, 0x3956c25b, 0x59f111f1, 0x923f82a4, 0xab1c5ed5] ++
    [0xd807aa98, 0x12835b01, 0x243185be, 0x550c7dc3, 0x72be5d74, 0x80deb1fe, 0x9bdc06a7, 0xc19bf174] ++
    [0xe49b69c1, 0xefbe4786, 0x0fc19dc6, 0x240ca1cc, 0x2de92c6f, 0x4a7484aa, 0x5cb0a9dc, 0x76f988da] ++
    [0x983e5152, 0xa831c66d, 0xb00327c8, 0xbf597fc7, 0xc6e00bf3, 0xd5a79147, 0x06ca6351, 0x14292967] ++
    [0x27b70a85, 0x2e1b2138, 0x4d2c6dfc, 0x53380d13, 0x650a7354, 0x766a0abb, 0x81c2c92e, 0x92722c85] ++
    [0xa2bfe8a1, 0xa81a664b, 0xc24b8b70, 0xc76c51a3, 0xd192e819, 0xd6990624, 0xf40e3585, 0x106aa070] ++
    [0x19a4c116, 0x1e376c08, 0x2748774c, 0x34b0bcb5, 0x391c0cb3, 0x4ed8aa4a, 0x5b9cca4f, 0x682e6ff3] ++
    [0x748f82ee, 0x78a5636f, 0x84c87814, 0x8cc70208, 0x90befffa, 0xa4506ceb, 0xbef9a3f7, 0xc67178f2] ∧
  ∀ (st : Sha256Words) (blk : List Byte) (s : State), blk.length = 64 →
    (let v := shaRounds 64 st blk
     exec (.sha256Transform st blk) s =
       .next { s with unitReply := some [st.a + v.a, st.b + v.b, st.c + v.c, st.d + v.d, st.e + v.e, st.f + v.f,
         st.g + v.g, st.h + v.h] }) ∧
    shaRounds 0 st blk = st ∧
    (∀ j, j < 16 → (shaSchedule blk).getD j 0 =
      be32 (blk.getD (4 * j) 0) (blk.getD (4 * j + 1) 0) (blk.getD (4 * j + 2) 0) (blk.getD (4 * j + 3) 0)) ∧
    (∀ t, 16 ≤ t → t < 64 → let w := fun k => (shaSchedule blk).getD k 0
      w t = (rotr32 (w (t - 2)) 17 ^^^ rotr32 (w (t - 2)) 19 ^^^ shr32 (w (t - 2)) 10) + w (t - 7) +
        (rotr32 (w (t - 15)) 7 ^^^ rotr32 (w (t - 15)) 18 ^^^ shr32 (w (t - 15)) 3) + w (t - 16)) ∧
    ∀ t, t < 64 →
      let v := shaRounds t st blk
      let t1 := v.h + (rotr32 v.e 6 ^^^ rotr32 v.e 11 ^^^ rotr32 v.e 25) + ((v.e &&& v.f) ^^^ (~~~v.e &&& v.g)) +
        shaK t + (shaSchedule blk).getD t 0
      let t2 := (rotr32 v.a 2 ^^^ rotr32 v.a 13 ^^^ rotr32 v.a 22) + ((v.a &&& v.b) ^^^ (v.a &&& v.c) ^^^ (v.b &&& v.c))
      shaRounds (t + 1) st blk = ⟨t1 + t2, v.a, v.b, v.c, v.d + t1, v.e, v.f, v.g⟩

/-- The transform step of the context engine is a request of format T with `UNIT = CTX_ALG[0]` and the current state words:
the words the unit returns are the new state words, and MD5 leaves `H[4..7]` alone. -/
def Obligations.TransformStepIsUnitRequest : Prop :=
  ∀ (s : State) (blk : List Byte), s.ctxAlg = 0 ∨ s.ctxAlg = 1 → blk.length = 64 →
    ∃ i u t, decodeUnit ⟨s.ctxAlg.extractLsb' 0 1, if s.ctxAlg = 0 then s.h.md5.toList else s.h.sha256.toList, blk⟩ = .ok i ∧
      exec i s = .next u ∧ transformCtx blk s = .ok t ∧ t = { s with h := t.h } ∧
      u.unitReply = some (if s.ctxAlg = 0 then t.h.md5.toList else t.h.sha256.toList) ∧
      (s.ctxAlg = 0 → t.h.h4 = s.h.h4 ∧ t.h.h5 = s.h.h5 ∧ t.h.h6 = s.h.h6 ∧ t.h.h7 = s.h.h7)

/-- R134 and R135: the constants of SHA-256 are what the rules say they are, checked over the integers: `K[t]` is the first 32
bits of the fractional part of the cube root of the (t+1)-th prime `p`, and `H[j]` that of the square root of the (j+1)-th. -/
def Obligations.Sha256ConstantsAreRootsOfPrimes : Prop :=
  (∀ t, t < 64 → ∃ p r : Nat, p.Prime ∧ Nat.count Nat.Prime p = t ∧
    r ^ 3 ≤ p * (2 ^ 32) ^ 3 ∧ p * (2 ^ 32) ^ 3 < (r + 1) ^ 3 ∧ (shaK t).toNat = r % 2 ^ 32) ∧
  (∀ j, j < 8 → ∃ p r : Nat, p.Prime ∧ Nat.count Nat.Prime p = j ∧
    r ^ 2 ≤ p * (2 ^ 32) ^ 2 ∧ p * (2 ^ 32) ^ 2 < (r + 1) ^ 2 ∧ (sha256Initial.toList.getD j 0).toNat = r % 2 ^ 32)

/-! ### Errors (60_exceptions.md) -/

/-- UPDATE and FINAL are ignored while an error stands: nothing at all changes. -/
def Obligations.PoisonedContextIgnoresUpdateAndFinal : Prop :=
  ∀ s : State, s.err ≠ .none → (∀ data, exec (.update data) s = .next s) ∧ exec .final s = .next s

/-- R246: UPDATE and FINAL before any INIT or after FINAL record SEQ_ERR (code 3) and change nothing else, so a digest in
`DIGEST` stays. -/
def Obligations.OutOfSequenceRaisesSeqErr : Prop :=
  ∀ s : State, s.err = .none → s.lc = .uninit ∨ s.lc = .finalized →
    (∀ data, exec (.update data) s = .next { s with err := .seqErr }) ∧ exec .final s = .next { s with err := .seqErr } ∧
    ErrCode.seqErr.code = 3

/-- R242: a step that records an error changes `STATUS.ERR` and no other register, it was the first error, and the code
stands in the `STATUS` word at once. An error raised while another stands changes nothing. -/
def Obligations.ErrorsArePrecise : Prop :=
  (∀ s t : State, step s = .next t → t.err ≠ s.err → t.err ≠ .none →
    s.err = .none ∧ t = { s with err := t.err, inbox := t.inbox, unitReq := t.unitReq } ∧
    t.statusWord.extractLsb' 4 3 = t.err.code) ∧
  ∀ (s : State) (code : ErrCode), s.err ≠ .none → s.raise code = s

/-- `STATUS.ERR` is cleared only by a successful INIT and by reset. -/
def Obligations.OnlyInitAndResetClearError : Prop :=
  ∀ s t : State, step s = .next t → s.err ≠ .none → t.err ≠ s.err →
    t.err = .none ∧ s.unitReq = none ∧ ∃ rest, s.inbox = .reset :: rest ∨
      ∃ tr alg, s.inbox = .command tr :: rest ∧ decodeTransaction tr = .ok (.init alg) ∧ (alg = 0 ∨ alg = 1)

/-- A job that met an error makes no progress and produces no digest until a successful INIT: over any instructions without
one, the error and the context stand and no usable digest appears. -/
def Obligations.NoDigestAfterError : Prop :=
  ∀ (is : List Instr) (s t : State), s.err ≠ .none → (∀ alg, .init alg ∈ is → alg = 2 ∨ alg = 3) →
    runInstrs is s = .next t → t.err = s.err ∧ t.usableDigest = none ∧
      t = { s with desc := t.desc, descValid := t.descValid, unitReply := t.unitReply }

/-! ### Which instruction writes what (10_state.md R25, R26, R27, R32, R33) -/

/-- `LC` changes only as R25 lists: a successful INIT makes it FRESH, a successful UPDATE of an open context ACCUM, a
successful FINAL of an open context FINALIZED. -/
def Obligations.LifecycleTransitions : Prop :=
  ∀ (i : Instr) (s t : State), exec i s = .next t → t.lc ≠ s.lc →
    (∃ alg, i = .init alg ∧ (alg = 0 ∨ alg = 1) ∧ t.lc = .fresh) ∨
    (∃ data, i = .update data ∧ s.Open ∧ t.lc = .accum) ∨
    (i = .final ∧ s.Open ∧ t.lc = .finalized)

/-- The writers of each piece of state, over all instructions: the table of R27, with R222 for LOOKUP and R113 and R144 for the
transforms. That INIT keeps every byte of the buffer is R160's; for the bytes at or beyond the fill, which R23 leaves
unspecified, it is the model's choice, log entry 3. `wordDraws` and `byteDraws` are the model's own counters, log entries 2 and 3,
and `unitReply` is log entry 7. -/
def Obligations.RegisterWriters : Prop :=
  ∀ (i : Instr) (s t : State), exec i s = .next t →
    ((∀ alg, i ≠ .init alg) → t.ctxAlg = s.ctxAlg ∧ t.wordDraws = s.wordDraws) ∧
    ((∀ alg, i ≠ .init alg) → (∀ data, i ≠ .update data) → t.bitCount = s.bitCount) ∧
    ((∀ alg, i ≠ .init alg) → (∀ data, i ≠ .update data) → i ≠ .final →
      t.h = s.h ∧ t.lc = s.lc ∧ t.err = s.err ∧ t.buffer = s.buffer) ∧
    ((∀ data, i ≠ .update data) → i ≠ .final → ∀ a, t.bufferByte a = s.bufferByte a) ∧
    ((∀ alg, i ≠ .init alg) → i ≠ .final → t.digest = s.digest ∧ t.digestValid = s.digestValid) ∧
    ((∀ alg, i ≠ .lookup alg) → t.desc = s.desc ∧ t.descValid = s.descValid) ∧
    ((∀ st blk, i ≠ .md5Transform st blk) → (∀ st blk, i ≠ .sha256Transform st blk) → t.unitReply = s.unitReply) ∧
    t.inbox = s.inbox ∧ t.readData = s.readData ∧ t.unitReq = s.unitReq ∧ t.engine = s.engine

/-- `DIGEST` keeps its value through any later command except a successful INIT. -/
def Obligations.DigestKeptUntilInit : Prop :=
  ∀ (i : Instr) (s t : State), s.lc = .finalized → exec i s = .next t → (∀ alg, i = .init alg → alg = 2 ∨ alg = 3) →
    t.digest = s.digest ∧ t.digestValid = s.digestValid ∧ t.lc = .finalized

/-! ### Invariants (10_state.md R36) -/

/-- The invariants hold at reset. -/
def Obligations.InvariantsHoldAtReset : Prop :=
  State.reset.Inv ∧ State.reset.MessageInv ∧ State.reset.Quiescent

/-- Every step keeps the invariant of the registers (R36 (a) to (d), R24, R29, R32, R33), from every state that has it. -/
def Obligations.StepKeepsRegisterInvariant : Prop := ∀ s t : State, s.Inv → step s = .next t → t.Inv

/-- Every step keeps the invariant that some message accounts for the context (R36 (e), (f), R196): an open context has
absorbed a message, and a finalized one shows a message's digest. -/
def Obligations.StepKeepsMessageInvariant : Prop := ∀ s t : State, s.MessageInv → step s = .next t → t.MessageInv

/-- From a state that satisfies the invariant no step faults. Between two commands only the host can cause a refusal, by its
framing of a payload or by reading a register that does not exist. A state with a waiting request, which the host cannot issue
(R79; log entry 7), is refused only for a malformed request. The refusals and the faults are log entries 6, 8, 9 and 10. -/
def Obligations.NoStepFaults : Prop :=
  ∀ s : State, s.Inv → Safe (step s) ∧
    (s.Quiescent → ∀ r, step s = .refused r →
      (∃ tr rest, s.inbox = .command tr :: rest ∧ r = .payloadFraming) ∨
      (∃ n rest, s.inbox = .read n :: rest ∧ 3 ≤ n ∧ r = .noSuchRegister n)) ∧
    (¬ s.Quiescent → ∀ r, step s = .refused r → r = .unitFraming)

/-- Every step leaves the engine between two commands: no request waits at the transform units afterwards. That requests wait
in the state at all is the model's choice, log entry 7. -/
def Obligations.StepLeavesEngineQuiescent : Prop := ∀ s t : State, step s = .next t → t.Quiescent

/-! ### Whole messages (42_digest_context_buffer_engine.md R164, R168; 43_padding_state_machine.md R196) -/

/-- R164: along any run of instructions from any state whose context, if open, has absorbed `m`, an open context has absorbed
the payloads of every UPDATE that succeeded since the last successful INIT, behind `m` while none has run. -/
def Obligations.OpenContextAbsorbedItsMessage : Prop :=
  ∀ (is : List Instr) (s t : State) (m : List Byte), (s.Open → s.Absorbed m) → runInstrs is s = .next t → t.Open →
    let n := (messageAlong is s m).length
    (t.ctxAlg = 0 → t.h.md5 = chainMd5 ⟨0x67452301, 0xefcdab89, 0x98badcfe, 0x10325476⟩ ((messageAlong is s m).take (64 * (n / 64)))) ∧
    (t.ctxAlg = 1 → t.h.sha256 = chainSha256 ⟨0x6a09e667, 0xbb67ae85, 0x3c6ef372, 0xa54ff53a, 0x510e527f, 0x9b05688c, 0x1f83d9ab,
      0x5be0cd19⟩ ((messageAlong is s m).take (64 * (n / 64)))) ∧
    (t.ctxAlg = 0 ∨ t.ctxAlg = 1) ∧ t.bitCount.toNat = 8 * n ∧ t.holds 0 ((messageAlong is s m).drop (64 * (n / 64)))

/-- R164, by its two steps: INIT makes a context that has absorbed the empty message, and a successful UPDATE of one that
has absorbed `m` makes one that has absorbed `m ++ data`. -/
def Obligations.ContextAbsorbsMessage : Prop :=
  (∀ (s : State) (alg : Tag), alg = 0 ∨ alg = 1 → ∃ t, exec (.init alg) s = .next t ∧ t.ctxAlg = alg ∧ t.Absorbed []) ∧
  (∀ (s : State) (m data : List Byte), s.Absorbed m → s.err = .none → s.Open → 8 * (m.length + data.length) < 2 ^ 64 →
    ∃ t, exec (.update data) s = .next t ∧ t.ctxAlg = s.ctxAlg ∧ t.lc = .accum ∧ t.err = .none ∧ t.Absorbed (m ++ data))

/-- R196: FINAL of a context that has absorbed `M` writes `Digest(alg, M)` to `DIGEST`, where
`Digest(alg, M) = serialize(alg, chain(alg, IV(alg), M ++ pad(alg, n)))`. -/
def Obligations.FinalGivesMessageDigest : Prop :=
  ∀ (s : State) (m : List Byte), s.Absorbed m → s.err = .none → s.Open →
    ∃ t, exec .final s = .next t ∧ t.digestValid = true ∧
      (s.ctxAlg = 0 → t.digest = serializeMd5 (chainMd5 ⟨0x67452301, 0xefcdab89, 0x98badcfe, 0x10325476⟩
          (m ++ ([0x80] ++ List.replicate ((55 - (m.length : Int)) % 64).toNat 0 ++
            le64bytes (BitVec.ofNat 64 (8 * m.length))))) ++ List.replicate 16 0) ∧
      (s.ctxAlg = 1 → t.digest = serializeSha256 (chainSha256 ⟨0x6a09e667, 0xbb67ae85, 0x3c6ef372, 0xa54ff53a, 0x510e527f,
          0x9b05688c, 0x1f83d9ab, 0x5be0cd19⟩
          (m ++ ([0x80] ++ List.replicate ((55 - (m.length : Int)) % 64).toNat 0 ++
            be64bytes (BitVec.ofNat 64 (8 * m.length))))))

/-- R168, chunking invariance: from any state whatever, INIT and one UPDATE per chunk complete and leave a context that has
absorbed the concatenation `M`, FINAL behind them completes, and the digest the host may use is `Digest(alg, M)`, however `M`
is split, empty chunks included. -/
def Obligations.DigestIndependentOfChunking : Prop :=
  ∀ (s : State) (alg : Tag) (chunks : List (List Byte)), alg = 0 ∨ alg = 1 → 8 * chunks.flatten.length < 2 ^ 64 →
    (∃ u, runInstrs (.init alg :: chunks.map .update) s = .next u ∧ u.ctxAlg = alg ∧ u.Absorbed chunks.flatten) ∧
    ∃ t, runInstrs (job alg chunks) s = .next t ∧ t.usableDigest = some (digestOf alg chunks.flatten) ∧
      t.digest = digestRegister alg chunks.flatten ∧ t.lc = .finalized ∧ t.bitCount.toNat = 8 * chunks.flatten.length

/-- R168 for the context before FINAL: two contexts of one algorithm that have absorbed the same message agree on the state
words of that algorithm, on `BITCOUNT` and on the pending bytes. -/
def Obligations.AbsorbedStateDependsOnMessageOnly : Prop :=
  ∀ (s t : State) (m : List Byte), s.Absorbed m → t.Absorbed m → s.ctxAlg = t.ctxAlg →
    s.h.md5 = t.h.md5 ∧ (s.ctxAlg = 1 → s.h = t.h) ∧ s.bitCount = t.bitCount ∧ s.pending = t.pending

/-- The source's four known answers: `Digest(alg, M)` of the empty message and of "abc" (95_test_vectors.md V1). -/
def Obligations.KnownAnswerDigests : Prop :=
  digestOf 0 [] = [0xd4, 0x1d, 0x8c, 0xd9, 0x8f, 0x00, 0xb2, 0x04, 0xe9, 0x80, 0x09, 0x98, 0xec, 0xf8, 0x42, 0x7e] ∧
  digestOf 1 [] = [0xe3, 0xb0, 0xc4, 0x42, 0x98, 0xfc, 0x1c, 0x14, 0x9a, 0xfb, 0xf4, 0xc8, 0x99, 0x6f, 0xb9, 0x24,
    0x27, 0xae, 0x41, 0xe4, 0x64, 0x9b, 0x93, 0x4c, 0xa4, 0x95, 0x99, 0x1b, 0x78, 0x52, 0xb8, 0x55] ∧
  digestOf 0 [0x61, 0x62, 0x63] = [0x90, 0x01, 0x50, 0x98, 0x3c, 0xd2, 0x4f, 0xb0, 0xd6, 0x96, 0x3f, 0x7d, 0x28, 0xe1, 0x7f, 0x72] ∧
  digestOf 1 [0x61, 0x62, 0x63] = [0xba, 0x78, 0x16, 0xbf, 0x8f, 0x01, 0xcf, 0xea, 0x41, 0x41, 0x40, 0xde, 0x5d, 0xae, 0x22, 0x23,
    0xb0, 0x03, 0x61, 0xa3, 0x96, 0x17, 0x7a, 0x9c, 0xb4, 0x10, 0xff, 0x61, 0xf2, 0x00, 0x15, 0xad]

/-! ### Host side (30_encoding.md R81, 43 R203, 44 R224) -/

/-- What each line assembles to, R80's words and R81's pseudo-commands among them; that every line's transactions decode to
its instructions; and that an `update` line's payload is covered in order by pieces of at most 16,777,215 bytes, by one piece
when it fits. Lines as a syntax tree are log entry 14; where a longer payload is cut is log entry 21, and the last clause says of
it only what R81 asks. -/
def Obligations.AssembledLinesDecode : Prop :=
  (∀ alg : Tag, assemble (.init alg) = [⟨0x00000001 ||| (alg.setWidth 32 <<< 4), []⟩] ∧
    (assemble (.init alg)).map decodeTransaction = [.ok (.init alg)]) ∧
  (∀ alg : Tag, assemble (.lookup alg) = [⟨0x00000004 ||| (alg.setWidth 32 <<< 4), []⟩] ∧
    (assemble (.lookup alg)).map decodeTransaction = [.ok (.lookup alg)]) ∧
  (assemble .final = [⟨0x00000003, []⟩] ∧ (assemble .final).map decodeTransaction = [.ok .final]) ∧
  (∀ w : BitVec 32, assemble (.word w) = [⟨w, []⟩]) ∧
  (∀ bytes : List Byte, bytes.length ≤ 16777215 →
    assemble (.update bytes) = [⟨(BitVec.ofNat 32 bytes.length <<< 8) ||| 0x2, bytes⟩]) ∧
  (∀ bytes : List Byte, (assemble (.update bytes)).map decodeTransaction = (updatePieces bytes).map (fun p => .ok (.update p))) ∧
  (∀ (alg : Tag) (bytes : List Byte),
    assemble (.hash alg bytes) = assemble (.init alg) ++ assemble (.update bytes) ++ assemble .final) ∧
  (∀ alg : Tag, assemble (.reinit alg) = assemble (.init alg)) ∧
  (∀ bytes : List Byte, (updatePieces bytes).flatten = bytes ∧ (∀ p ∈ updatePieces bytes, p.length ≤ 16777215) ∧
    (bytes.length ≤ 16777215 → updatePieces bytes = [bytes]))

/-- R224: only `md5` and `sha256` resolve, exactly and with case, and `NAME_CASE_FOLD` folds the name first. -/
def Obligations.NamesResolveExactly : Prop :=
  (∀ (name : List Byte) (tag : Tag), resolveName false name = some tag ↔
    (name = [0x6d, 0x64, 0x35] ∧ tag = 0) ∨ (name = [0x73, 0x68, 0x61, 0x32, 0x35, 0x36] ∧ tag = 1)) ∧
  (∀ name : List Byte, resolveName true name = resolveName false (name.map asciiLower))

/-- The hexadecimal rendering has two digits a byte and loses nothing. -/
def Obligations.HexRenderingIsFaithful : Prop :=
  (∀ x : List Byte, (hexRender x).length = 2 * x.length) ∧ (∀ x y : List Byte, hexRender x = hexRender y → x = y) ∧
  hexRender [0x0d] = ['0', 'd']

/-! ### Engine instances (60_exceptions.md R255, 42 R169) -/

/-- R169: a step of one engine instance reads and writes that instance's state alone. -/
def Obligations.InstancesAreIsolated : Prop :=
  ∀ (sys sys' : SystemState) (k : Nat), sys.stepEngine k = .next sys' →
    sys'.schedule = sys.schedule ∧ sys'.engines.length = sys.engines.length ∧
    (∀ j, j ≠ k → sys'.engines[j]? = sys.engines[j]?) ∧
    ∀ e, sys.engines[k]? = some e → ∃ e', step e = .next e' ∧ sys'.engines[k]? = some e'

/-- No outcome depends on how the steps of the instances interleave: two schedules in which every instance moves equally
often lead to the same states. For the specified state this follows from R59 and R169. The statement compares two runs, so it
also equates the unspecified values each instance draws in them, `H[4..7]` after INIT of MD5 and unspecified bytes of the
buffer: that they agree is no rule of the spec but the model's choice, DESIGN CHOICE, log entry 20. Schedules are log entry 13. -/
def Obligations.ScheduleOrderIrrelevant : Prop :=
  ∀ (l l' : List Nat) (sys t : SystemState), l.Perm l' → SystemState.runSchedule l sys = .next t →
    SystemState.runSchedule l' sys = .next t
end

