-- ==== Sys2Proof/Laws/State.lean ====
section
/-! SUPPORT. Laws/State.lean: one lemma per field of State per named update of Ops, Flags, Context and Port, and the small
lemmas of the state words' views. Later proofs cite these and unfold no record update. -/

namespace Sys2Proof.Machine

variable (s : State)

@[simp] theorem withBuffer_h (m : Memory) : (s.withBuffer m).h = s.h := rfl
@[simp] theorem withBuffer_bitCount (m : Memory) : (s.withBuffer m).bitCount = s.bitCount := rfl
@[simp] theorem withBuffer_buffer (m : Memory) : (s.withBuffer m).buffer = m := rfl
@[simp] theorem withBuffer_lc (m : Memory) : (s.withBuffer m).lc = s.lc := rfl
@[simp] theorem withBuffer_ctxAlg (m : Memory) : (s.withBuffer m).ctxAlg = s.ctxAlg := rfl
@[simp] theorem withBuffer_err (m : Memory) : (s.withBuffer m).err = s.err := rfl
@[simp] theorem withBuffer_digestValid (m : Memory) : (s.withBuffer m).digestValid = s.digestValid := rfl
@[simp] theorem withBuffer_descValid (m : Memory) : (s.withBuffer m).descValid = s.descValid := rfl
@[simp] theorem withBuffer_digest (m : Memory) : (s.withBuffer m).digest = s.digest := rfl
@[simp] theorem withBuffer_desc (m : Memory) : (s.withBuffer m).desc = s.desc := rfl
@[simp] theorem withBuffer_inbox (m : Memory) : (s.withBuffer m).inbox = s.inbox := rfl
@[simp] theorem withBuffer_readData (m : Memory) : (s.withBuffer m).readData = s.readData := rfl
@[simp] theorem withBuffer_unitReq (m : Memory) : (s.withBuffer m).unitReq = s.unitReq := rfl
@[simp] theorem withBuffer_unitReply (m : Memory) : (s.withBuffer m).unitReply = s.unitReply := rfl
@[simp] theorem withBuffer_wordDraws (m : Memory) : (s.withBuffer m).wordDraws = s.wordDraws := rfl
@[simp] theorem withBuffer_byteDraws (m : Memory) : (s.withBuffer m).byteDraws = s.byteDraws := rfl
@[simp] theorem withBuffer_engine (m : Memory) : (s.withBuffer m).engine = s.engine := rfl

@[simp] theorem withWords_h (h : StateWords) : (s.withWords h).h = h := rfl
@[simp] theorem withWords_bitCount (h : StateWords) : (s.withWords h).bitCount = s.bitCount := rfl
@[simp] theorem withWords_buffer (h : StateWords) : (s.withWords h).buffer = s.buffer := rfl
@[simp] theorem withWords_lc (h : StateWords) : (s.withWords h).lc = s.lc := rfl
@[simp] theorem withWords_ctxAlg (h : StateWords) : (s.withWords h).ctxAlg = s.ctxAlg := rfl
@[simp] theorem withWords_err (h : StateWords) : (s.withWords h).err = s.err := rfl
@[simp] theorem withWords_digestValid (h : StateWords) : (s.withWords h).digestValid = s.digestValid := rfl
@[simp] theorem withWords_descValid (h : StateWords) : (s.withWords h).descValid = s.descValid := rfl
@[simp] theorem withWords_digest (h : StateWords) : (s.withWords h).digest = s.digest := rfl
@[simp] theorem withWords_desc (h : StateWords) : (s.withWords h).desc = s.desc := rfl
@[simp] theorem withWords_inbox (h : StateWords) : (s.withWords h).inbox = s.inbox := rfl
@[simp] theorem withWords_readData (h : StateWords) : (s.withWords h).readData = s.readData := rfl
@[simp] theorem withWords_unitReq (h : StateWords) : (s.withWords h).unitReq = s.unitReq := rfl
@[simp] theorem withWords_unitReply (h : StateWords) : (s.withWords h).unitReply = s.unitReply := rfl
@[simp] theorem withWords_wordDraws (h : StateWords) : (s.withWords h).wordDraws = s.wordDraws := rfl
@[simp] theorem withWords_byteDraws (h : StateWords) : (s.withWords h).byteDraws = s.byteDraws := rfl
@[simp] theorem withWords_engine (h : StateWords) : (s.withWords h).engine = s.engine := rfl

@[simp] theorem raise_h (code : ErrCode) : (s.raise code).h = s.h := rfl
@[simp] theorem raise_bitCount (code : ErrCode) : (s.raise code).bitCount = s.bitCount := rfl
@[simp] theorem raise_buffer (code : ErrCode) : (s.raise code).buffer = s.buffer := rfl
@[simp] theorem raise_lc (code : ErrCode) : (s.raise code).lc = s.lc := rfl
@[simp] theorem raise_ctxAlg (code : ErrCode) : (s.raise code).ctxAlg = s.ctxAlg := rfl
@[simp] theorem raise_err (code : ErrCode) : (s.raise code).err = if s.err = .none then code else s.err := rfl
@[simp] theorem raise_digestValid (code : ErrCode) : (s.raise code).digestValid = s.digestValid := rfl
@[simp] theorem raise_descValid (code : ErrCode) : (s.raise code).descValid = s.descValid := rfl
@[simp] theorem raise_digest (code : ErrCode) : (s.raise code).digest = s.digest := rfl
@[simp] theorem raise_desc (code : ErrCode) : (s.raise code).desc = s.desc := rfl
@[simp] theorem raise_inbox (code : ErrCode) : (s.raise code).inbox = s.inbox := rfl
@[simp] theorem raise_readData (code : ErrCode) : (s.raise code).readData = s.readData := rfl
@[simp] theorem raise_unitReq (code : ErrCode) : (s.raise code).unitReq = s.unitReq := rfl
@[simp] theorem raise_unitReply (code : ErrCode) : (s.raise code).unitReply = s.unitReply := rfl
@[simp] theorem raise_wordDraws (code : ErrCode) : (s.raise code).wordDraws = s.wordDraws := rfl
@[simp] theorem raise_byteDraws (code : ErrCode) : (s.raise code).byteDraws = s.byteDraws := rfl
@[simp] theorem raise_engine (code : ErrCode) : (s.raise code).engine = s.engine := rfl

@[simp] theorem consumeBuffer_h : (s.consumeBuffer).h = s.h := rfl
@[simp] theorem consumeBuffer_bitCount : (s.consumeBuffer).bitCount = s.bitCount := rfl
@[simp] theorem consumeBuffer_buffer : (s.consumeBuffer).buffer = [] := rfl
@[simp] theorem consumeBuffer_lc : (s.consumeBuffer).lc = s.lc := rfl
@[simp] theorem consumeBuffer_ctxAlg : (s.consumeBuffer).ctxAlg = s.ctxAlg := rfl
@[simp] theorem consumeBuffer_err : (s.consumeBuffer).err = s.err := rfl
@[simp] theorem consumeBuffer_digestValid : (s.consumeBuffer).digestValid = s.digestValid := rfl
@[simp] theorem consumeBuffer_descValid : (s.consumeBuffer).descValid = s.descValid := rfl
@[simp] theorem consumeBuffer_digest : (s.consumeBuffer).digest = s.digest := rfl
@[simp] theorem consumeBuffer_desc : (s.consumeBuffer).desc = s.desc := rfl
@[simp] theorem consumeBuffer_inbox : (s.consumeBuffer).inbox = s.inbox := rfl
@[simp] theorem consumeBuffer_readData : (s.consumeBuffer).readData = s.readData := rfl
@[simp] theorem consumeBuffer_unitReq : (s.consumeBuffer).unitReq = s.unitReq := rfl
@[simp] theorem consumeBuffer_unitReply : (s.consumeBuffer).unitReply = s.unitReply := rfl
@[simp] theorem consumeBuffer_wordDraws : (s.consumeBuffer).wordDraws = s.wordDraws := rfl
@[simp] theorem consumeBuffer_byteDraws : (s.consumeBuffer).byteDraws = s.byteDraws + 1 := rfl
@[simp] theorem consumeBuffer_engine : (s.consumeBuffer).engine = s.engine := rfl

@[simp] theorem clearDigest_h : (s.clearDigest).h = s.h := rfl
@[simp] theorem clearDigest_bitCount : (s.clearDigest).bitCount = s.bitCount := rfl
@[simp] theorem clearDigest_buffer : (s.clearDigest).buffer = s.buffer := rfl
@[simp] theorem clearDigest_lc : (s.clearDigest).lc = s.lc := rfl
@[simp] theorem clearDigest_ctxAlg : (s.clearDigest).ctxAlg = s.ctxAlg := rfl
@[simp] theorem clearDigest_err : (s.clearDigest).err = s.err := rfl
@[simp] theorem clearDigest_digestValid : (s.clearDigest).digestValid = false := rfl
@[simp] theorem clearDigest_descValid : (s.clearDigest).descValid = s.descValid := rfl
@[simp] theorem clearDigest_digest : (s.clearDigest).digest = zeros Config.digestBytes := rfl
@[simp] theorem clearDigest_desc : (s.clearDigest).desc = s.desc := rfl
@[simp] theorem clearDigest_inbox : (s.clearDigest).inbox = s.inbox := rfl
@[simp] theorem clearDigest_readData : (s.clearDigest).readData = s.readData := rfl
@[simp] theorem clearDigest_unitReq : (s.clearDigest).unitReq = s.unitReq := rfl
@[simp] theorem clearDigest_unitReply : (s.clearDigest).unitReply = s.unitReply := rfl
@[simp] theorem clearDigest_wordDraws : (s.clearDigest).wordDraws = s.wordDraws := rfl
@[simp] theorem clearDigest_byteDraws : (s.clearDigest).byteDraws = s.byteDraws := rfl
@[simp] theorem clearDigest_engine : (s.clearDigest).engine = s.engine := rfl

@[simp] theorem setDigest_h (d : List Byte) : (s.setDigest d).h = s.h := rfl
@[simp] theorem setDigest_bitCount (d : List Byte) : (s.setDigest d).bitCount = s.bitCount := rfl
@[simp] theorem setDigest_buffer (d : List Byte) : (s.setDigest d).buffer = s.buffer := rfl
@[simp] theorem setDigest_lc (d : List Byte) : (s.setDigest d).lc = s.lc := rfl
@[simp] theorem setDigest_ctxAlg (d : List Byte) : (s.setDigest d).ctxAlg = s.ctxAlg := rfl
@[simp] theorem setDigest_err (d : List Byte) : (s.setDigest d).err = s.err := rfl
@[simp] theorem setDigest_digestValid (d : List Byte) : (s.setDigest d).digestValid = true := rfl
@[simp] theorem setDigest_descValid (d : List Byte) : (s.setDigest d).descValid = s.descValid := rfl
@[simp] theorem setDigest_digest (d : List Byte) : (s.setDigest d).digest = d ++ zeros (Config.digestBytes - d.length) := rfl
@[simp] theorem setDigest_desc (d : List Byte) : (s.setDigest d).desc = s.desc := rfl
@[simp] theorem setDigest_inbox (d : List Byte) : (s.setDigest d).inbox = s.inbox := rfl
@[simp] theorem setDigest_readData (d : List Byte) : (s.setDigest d).readData = s.readData := rfl
@[simp] theorem setDigest_unitReq (d : List Byte) : (s.setDigest d).unitReq = s.unitReq := rfl
@[simp] theorem setDigest_unitReply (d : List Byte) : (s.setDigest d).unitReply = s.unitReply := rfl
@[simp] theorem setDigest_wordDraws (d : List Byte) : (s.setDigest d).wordDraws = s.wordDraws := rfl
@[simp] theorem setDigest_byteDraws (d : List Byte) : (s.setDigest d).byteDraws = s.byteDraws := rfl
@[simp] theorem setDigest_engine (d : List Byte) : (s.setDigest d).engine = s.engine := rfl

@[simp] theorem setDesc_h (d : Descriptor) (found : Bool) : (s.setDesc d found).h = s.h := rfl
@[simp] theorem setDesc_bitCount (d : Descriptor) (found : Bool) : (s.setDesc d found).bitCount = s.bitCount := rfl
@[simp] theorem setDesc_buffer (d : Descriptor) (found : Bool) : (s.setDesc d found).buffer = s.buffer := rfl
@[simp] theorem setDesc_lc (d : Descriptor) (found : Bool) : (s.setDesc d found).lc = s.lc := rfl
@[simp] theorem setDesc_ctxAlg (d : Descriptor) (found : Bool) : (s.setDesc d found).ctxAlg = s.ctxAlg := rfl
@[simp] theorem setDesc_err (d : Descriptor) (found : Bool) : (s.setDesc d found).err = s.err := rfl
@[simp] theorem setDesc_digestValid (d : Descriptor) (found : Bool) : (s.setDesc d found).digestValid = s.digestValid := rfl
@[simp] theorem setDesc_descValid (d : Descriptor) (found : Bool) : (s.setDesc d found).descValid = found := rfl
@[simp] theorem setDesc_digest (d : Descriptor) (found : Bool) : (s.setDesc d found).digest = s.digest := rfl
@[simp] theorem setDesc_desc (d : Descriptor) (found : Bool) : (s.setDesc d found).desc = d := rfl
@[simp] theorem setDesc_inbox (d : Descriptor) (found : Bool) : (s.setDesc d found).inbox = s.inbox := rfl
@[simp] theorem setDesc_readData (d : Descriptor) (found : Bool) : (s.setDesc d found).readData = s.readData := rfl
@[simp] theorem setDesc_unitReq (d : Descriptor) (found : Bool) : (s.setDesc d found).unitReq = s.unitReq := rfl
@[simp] theorem setDesc_unitReply (d : Descriptor) (found : Bool) : (s.setDesc d found).unitReply = s.unitReply := rfl
@[simp] theorem setDesc_wordDraws (d : Descriptor) (found : Bool) : (s.setDesc d found).wordDraws = s.wordDraws := rfl
@[simp] theorem setDesc_byteDraws (d : Descriptor) (found : Bool) : (s.setDesc d found).byteDraws = s.byteDraws := rfl
@[simp] theorem setDesc_engine (d : Descriptor) (found : Bool) : (s.setDesc d found).engine = s.engine := rfl

@[simp] theorem startContext_h (alg : Tag) : (startContext alg s).h = initialWords alg s.engine s.wordDraws := rfl
@[simp] theorem startContext_bitCount (alg : Tag) : (startContext alg s).bitCount = 0 := rfl
@[simp] theorem startContext_buffer (alg : Tag) : (startContext alg s).buffer = s.buffer := rfl
@[simp] theorem startContext_lc (alg : Tag) : (startContext alg s).lc = .fresh := rfl
@[simp] theorem startContext_ctxAlg (alg : Tag) : (startContext alg s).ctxAlg = alg := rfl
@[simp] theorem startContext_err (alg : Tag) : (startContext alg s).err = .none := rfl
@[simp] theorem startContext_digestValid (alg : Tag) : (startContext alg s).digestValid = false := rfl
@[simp] theorem startContext_descValid (alg : Tag) : (startContext alg s).descValid = s.descValid := rfl
@[simp] theorem startContext_digest (alg : Tag) : (startContext alg s).digest = zeros Config.digestBytes := rfl
@[simp] theorem startContext_desc (alg : Tag) : (startContext alg s).desc = s.desc := rfl
@[simp] theorem startContext_inbox (alg : Tag) : (startContext alg s).inbox = s.inbox := rfl
@[simp] theorem startContext_readData (alg : Tag) : (startContext alg s).readData = s.readData := rfl
@[simp] theorem startContext_unitReq (alg : Tag) : (startContext alg s).unitReq = s.unitReq := rfl
@[simp] theorem startContext_unitReply (alg : Tag) : (startContext alg s).unitReply = s.unitReply := rfl
@[simp] theorem startContext_wordDraws (alg : Tag) : (startContext alg s).wordDraws = if alg = 0 then s.wordDraws + 1 else s.wordDraws := rfl
@[simp] theorem startContext_byteDraws (alg : Tag) : (startContext alg s).byteDraws = s.byteDraws := rfl
@[simp] theorem startContext_engine (alg : Tag) : (startContext alg s).engine = s.engine := rfl

@[simp] theorem hardwareReset_h : (hardwareReset s).h = StateWords.zero := rfl
@[simp] theorem hardwareReset_bitCount : (hardwareReset s).bitCount = 0 := rfl
@[simp] theorem hardwareReset_buffer : (hardwareReset s).buffer = [] := rfl
@[simp] theorem hardwareReset_lc : (hardwareReset s).lc = .uninit := rfl
@[simp] theorem hardwareReset_ctxAlg : (hardwareReset s).ctxAlg = 0 := rfl
@[simp] theorem hardwareReset_err : (hardwareReset s).err = .none := rfl
@[simp] theorem hardwareReset_digestValid : (hardwareReset s).digestValid = false := rfl
@[simp] theorem hardwareReset_descValid : (hardwareReset s).descValid = false := rfl
@[simp] theorem hardwareReset_digest : (hardwareReset s).digest = zeros Config.digestBytes := rfl
@[simp] theorem hardwareReset_desc : (hardwareReset s).desc = Descriptor.zero := rfl
@[simp] theorem hardwareReset_inbox : (hardwareReset s).inbox = s.inbox := rfl
@[simp] theorem hardwareReset_readData : (hardwareReset s).readData = none := rfl
@[simp] theorem hardwareReset_unitReq : (hardwareReset s).unitReq = none := rfl
@[simp] theorem hardwareReset_unitReply : (hardwareReset s).unitReply = none := rfl
@[simp] theorem hardwareReset_wordDraws : (hardwareReset s).wordDraws = s.wordDraws := rfl
@[simp] theorem hardwareReset_byteDraws : (hardwareReset s).byteDraws = s.byteDraws + 1 := rfl
@[simp] theorem hardwareReset_engine : (hardwareReset s).engine = s.engine := rfl

@[simp] theorem withBuffer_withBuffer (m n : Memory) : (s.withBuffer m).withBuffer n = s.withBuffer n := rfl
@[simp] theorem withWords_withWords (g h : StateWords) : (s.withWords g).withWords h = s.withWords h := rfl
@[simp] theorem withWords_withBuffer (h : StateWords) (m : Memory) :
    (s.withWords h).withBuffer m = (s.withBuffer m).withWords h := rfl

@[simp] theorem md5_withMd5 (h : StateWords) (w : Md5Words) : (h.withMd5 w).md5 = w := rfl
@[simp] theorem withMd5_md5 (h : StateWords) : h.withMd5 h.md5 = h := rfl
@[simp] theorem withMd5_withMd5 (h : StateWords) (v w : Md5Words) : (h.withMd5 v).withMd5 w = h.withMd5 w := rfl
@[simp] theorem sha256_ofSha256 (w : Sha256Words) : (StateWords.ofSha256 w).sha256 = w := rfl
@[simp] theorem ofSha256_sha256 (h : StateWords) : StateWords.ofSha256 h.sha256 = h := rfl
@[simp] theorem md5_initialWords (engine draw : Nat) : (initialWords 0 engine draw).md5 = md5Initial := rfl
@[simp] theorem sha256_initialWords (engine draw : Nat) : (initialWords 1 engine draw).sha256 = sha256Initial := rfl

/-- Under a standing error nothing more is recorded (R241: the first error wins). -/
theorem raise_of_err {s : State} {code : ErrCode} (h : s.err ≠ .none) : s.raise code = s := by
  simp [State.raise, h]

/-- With no error standing, the code is recorded and nothing else changes (R241, R242). -/
theorem raise_of_none {s : State} {code : ErrCode} (h : s.err = .none) : s.raise code = { s with err := code } := by
  simp [State.raise, h]

/-- The fill level is always in 0..63 (R24). -/
theorem fill_lt : s.fill < 64 := Nat.mod_lt _ (by decide)

end Sys2Proof.Machine
end

