-- ==== Sys2Proof/Laws/Memory.lean ====
section
/-! SUPPORT. Laws/Memory.lean: what the buffer's operations do: a byte read after a write, the canonical form kept, and one
lemma each for `memRead` and `memWrite`. -/

namespace Sys2Proof.Machine

@[simp] theorem byte?_nil (a : Nat) : Memory.byte? [] a = none := rfl

theorem byte?_set (m : Memory) (a : Nat) (b : Byte) (x : Nat) :
    (m.set a b).byte? x = if x = a then some b else m.byte? x := by
  induction m with
  | nil => simp [Memory.set, Memory.byte?, eq_comm]
  | cons p m ih =>
    obtain ⟨k, c⟩ := p
    by_cases h1 : a < k
    · simp [Memory.set, Memory.byte?, h1, eq_comm]
    · by_cases h2 : a = k
      · subst h2
        by_cases hx : x = a
        · subst hx
          simp [Memory.set, Memory.byte?]
        · have hx' : ¬ a = x := fun e => hx e.symm
          simp [Memory.set, Memory.byte?, hx, hx']
      · simp only [Memory.set, h1, h2, if_false, Memory.byte?, ih]
        by_cases hx : x = a
        · have hk : ¬ k = x := by omega
          simp only [hk, if_false]
        · by_cases hk : k = x <;> simp [hx, hk]

/-- A byte read after a write: the written bytes inside the written range, the old byte everywhere else. -/
theorem byte?_setList (m : Memory) (a : Nat) (v : List Byte) (x : Nat) :
    (m.setList a v).byte? x = if h : a ≤ x ∧ x < a + v.length then some (v[x - a]'(by omega)) else m.byte? x := by
  induction v generalizing m a with
  | nil =>
    have : ¬ (a ≤ x ∧ x < a) := by omega
    simp [Memory.setList]
  | cons b v ih =>
    simp only [Memory.setList, ih, byte?_set, List.length_cons]
    by_cases hx : x = a
    · subst hx
      have h1 : ¬ (x + 1 ≤ x ∧ x < x + 1 + v.length) := by omega
      simp
    · by_cases h1 : a + 1 ≤ x ∧ x < a + 1 + v.length
      · have h2 : a ≤ x ∧ x < a + (v.length + 1) := by omega
        rw [dif_pos h1, dif_pos h2]
        have h3 : x - a = (x - (a + 1)) + 1 := by omega
        simp [h3]
      · have h2 : ¬ (a ≤ x ∧ x < a + (v.length + 1)) := by omega
        rw [dif_neg h1, dif_neg h2, if_neg hx]

theorem byte?_setList_inside {m : Memory} {a : Nat} {v : List Byte} {k : Nat} (hk : k < v.length) :
    (m.setList a v).byte? (a + k) = some v[k] := by
  rw [byte?_setList, dif_pos (by omega)]
  simp

theorem byte?_setList_outside {m : Memory} {a : Nat} {v : List Byte} {x : Nat} (h : x < a ∨ a + v.length ≤ x) :
    (m.setList a v).byte? x = m.byte? x := by
  rw [byte?_setList, dif_neg (by omega)]

@[simp] theorem setList_nil (m : Memory) (a : Nat) : m.setList a [] = m := rfl

/-! ### The canonical form -/

theorem rising_cons (p : Host.Cell) (m : Memory) :
    Memory.rising (p :: m) = true ↔ (∀ q ∈ m.head?, p.1 < q.1) ∧ Memory.rising m = true := by
  cases m <;> simp [Memory.rising]

theorem rising_set (m : Memory) (a : Nat) (b : Byte) (h : Memory.rising m = true) :
    Memory.rising (m.set a b) = true ∧ ∀ q ∈ (m.set a b).head?, q.1 = a ∨ ∃ p ∈ m.head?, q.1 = p.1 := by
  induction m with
  | nil => simp [Memory.set, Memory.rising]
  | cons p m ih =>
    obtain ⟨k, c⟩ := p
    rw [rising_cons] at h
    by_cases h1 : a < k
    · rw [Memory.set, if_pos h1, rising_cons, rising_cons]
      refine ⟨⟨fun q hq => ?_, h⟩, fun q hq => Or.inl ?_⟩ <;> simp at hq <;> simp [← hq, h1]
    · by_cases h2 : a = k
      · subst h2
        rw [Memory.set, if_neg h1, if_pos rfl, rising_cons]
        exact ⟨h, fun q hq => Or.inl (by simp at hq; simp [← hq])⟩
      · obtain ⟨ih1, ih2⟩ := ih h.2
        simp only [Memory.set, h1, h2, if_false, rising_cons, ih1, and_true]
        refine ⟨fun q hq => ?_, by simp⟩
        rcases ih2 q hq with e | ⟨p, hp, e⟩
        · show k < q.1
          omega
        · have := h.1 p hp
          show k < q.1
          rw [e]
          exact this

theorem all_set (m : Memory) (a : Nat) (b : Byte) (P : Host.Cell → Bool) (hm : m.all P = true) (hp : P (a, b) = true) :
    (m.set a b).all P = true := by
  induction m with
  | nil => simp [Memory.set, hp]
  | cons p m ih =>
    obtain ⟨k, c⟩ := p
    simp only [List.all_cons, Bool.and_eq_true] at hm
    unfold Memory.set
    split
    · simp [hp, hm]
    · split
      · simp [hp, hm.2]
      · simp [hm.1, ih hm.2]

/-- A write inside 0..63 keeps the canonical form. -/
theorem wf_set {m : Memory} {a : Nat} {b : Byte} (h : m.wf = true) (ha : a < 64) : (m.set a b).wf = true := by
  simp only [Memory.wf, Bool.and_eq_true] at h ⊢
  exact ⟨(rising_set m a b h.1).1, all_set m a b _ h.2 (by simp [ha])⟩

/-- Writing a run of bytes inside 0..63 keeps the canonical form. -/
theorem wf_setList {m : Memory} {a : Nat} {v : List Byte} (h : m.wf = true) (ha : a + v.length ≤ 64) :
    (m.setList a v).wf = true := by
  induction v generalizing m a with
  | nil => exact h
  | cons b v ih =>
    simp only [List.length_cons] at ha
    exact ih (wf_set h (by omega)) (by omega)

theorem wf_nil : Memory.wf [] = true := rfl

theorem rising_above {p : Host.Cell} {m : Memory} (h : Memory.rising (p :: m) = true) : ∀ q ∈ m, p.1 < q.1 := by
  induction m generalizing p with
  | nil => simp
  | cons r m ih =>
    rw [rising_cons] at h
    have hr : p.1 < r.1 := h.1 r (by simp)
    intro q hq
    rcases List.mem_cons.mp hq with e | hq
    · rw [e]
      exact hr
    · exact lt_trans hr (ih h.2 q hq)

theorem byte?_eq_none_of_below {m : Memory} {a : Nat} (h : ∀ q ∈ m, a < q.1) : m.byte? a = none := by
  induction m with
  | nil => rfl
  | cons p m ih =>
    have hp := h p (by simp)
    have : ¬ p.1 = a := by omega
    simp only [Memory.byte?, this, if_false]
    exact ih (fun q hq => h q (List.mem_cons_of_mem _ hq))

/-- Equal bytes at every address make equal buffers: the form is canonical. -/
theorem eq_of_byte?_eq {m n : Memory} (hm : Memory.rising m = true) (hn : Memory.rising n = true)
    (h : ∀ a, m.byte? a = n.byte? a) : m = n := by
  induction m generalizing n with
  | nil =>
    cases n with
    | nil => rfl
    | cons q n =>
      have := h q.1
      simp [Memory.byte?] at this
  | cons p m ih =>
    cases n with
    | nil =>
      have := h p.1
      simp [Memory.byte?] at this
    | cons q n =>
      have hpq : p.1 = q.1 := by
        rcases Nat.lt_trichotomy p.1 q.1 with hlt | he | hgt
        · have h1 := h p.1
          have h2 : Memory.byte? (q :: n) p.1 = none :=
            byte?_eq_none_of_below (fun r hr => by
              rcases List.mem_cons.mp hr with e | hr
              · rw [e]; exact hlt
              · exact lt_trans hlt (rising_above hn r hr))
          rw [h2] at h1
          simp [Memory.byte?] at h1
        · exact he
        · have h1 := h q.1
          have h2 : Memory.byte? (p :: m) q.1 = none :=
            byte?_eq_none_of_below (fun r hr => by
              rcases List.mem_cons.mp hr with e | hr
              · rw [e]; exact hgt
              · exact lt_trans hgt (rising_above hm r hr))
          rw [h2] at h1
          simp [Memory.byte?] at h1
      have hb : p.2 = q.2 := by
        have h1 := h p.1
        simp [Memory.byte?, hpq] at h1
        exact h1
      have hp : p = q := Prod.ext hpq hb
      subst hp
      congr 1
      refine ih ((rising_cons _ _).mp hm).2 ((rising_cons _ _).mp hn).2 (fun a => ?_)
      by_cases ha : p.1 = a
      · subst ha
        rw [byte?_eq_none_of_below (rising_above hm), byte?_eq_none_of_below (rising_above hn)]
      · have h1 := h a
        simpa [Memory.byte?, ha] using h1

/-! ### The two accesses (R50) -/

/-- `MemWrite` inside 0..63 answers the state with the bytes set and nothing else changed. -/
theorem memWrite_ok {s : State} {a : Nat} {v : List Byte} (h : a + v.length ≤ 64) :
    s.memWrite a v = .ok (s.withBuffer (s.buffer.setList a v)) := by
  simp [State.memWrite, h]

/-- `MemWrite` answers a state only inside 0..63, and only the buffer changes. -/
theorem memWrite_eq_ok {s t : State} {a : Nat} {v : List Byte} (h : s.memWrite a v = .ok t) :
    a + v.length ≤ 64 ∧ t = s.withBuffer (s.buffer.setList a v) := by
  unfold State.memWrite at h
  split at h
  · next hle => exact ⟨hle, by simpa using h.symm⟩
  · simp at h

/-- `MemRead` inside 0..63 never faults. -/
theorem memRead_ok {s : State} {a n : Nat} (h : a + n ≤ 64) :
    s.memRead a n = .ok ((List.range' a n).map s.bufferByte) := by
  simp [State.memRead, h]

/-- A byte with a specified value reads as that value. -/
theorem bufferByte_of_byte? {s : State} {a : Nat} {b : Byte} (h : s.buffer.byte? a = some b) : s.bufferByte a = b := by
  simp [State.bufferByte, h]

/-- `MemRead` answers the bytes that read as `v`. -/
theorem memRead_of_reads {s : State} {a : Nat} {v : List Byte} (h : s.reads a v) (ha : a + v.length ≤ 64) :
    s.memRead a v.length = .ok v := by
  rw [memRead_ok ha]
  congr 1
  apply List.ext_getElem
  · simp
  · intro k h1 h2
    simp only [List.getElem_map, List.getElem_range', one_mul]
    exact h k h2

/-- Specified bytes read as their values: no free value is read. -/
theorem reads_of_holds {s : State} {a : Nat} {v : List Byte} (h : s.holds a v) : s.reads a v :=
  fun k hk => bufferByte_of_byte? (h k hk)

/-! ### Bytes held at an address -/

theorem holds_congr {s t : State} {a : Nat} {v : List Byte} (h : t.buffer = s.buffer) : t.holds a v ↔ s.holds a v := by
  simp [State.holds, h]

@[simp] theorem holds_nil (s : State) (a : Nat) : s.holds a [] := by
  intro k hk
  simp at hk

/-- What was written is held. -/
theorem holds_setList (s : State) (m : Memory) (a : Nat) (v : List Byte) :
    (s.withBuffer (m.setList a v)).holds a v := fun _ hk => byte?_setList_inside hk

/-- What was written is what is read. -/
theorem reads_setList (s : State) (m : Memory) (a : Nat) (v : List Byte) :
    (s.withBuffer (m.setList a v)).reads a v := reads_of_holds (holds_setList s m a v)

/-- Outside the written range every byte reads as before. -/
theorem bufferByte_setList_outside {s : State} {a : Nat} {v : List Byte} {x : Nat} (h : x < a ∨ a + v.length ≤ x) :
    (s.withBuffer (s.buffer.setList a v)).bufferByte x = s.bufferByte x := by
  simp [State.bufferByte, byte?_setList_outside h]

/-- Appending right behind bytes that read as `u` reads as the concatenation. -/
theorem reads_append_setList {s : State} {a : Nat} {u v : List Byte} (h : s.reads a u) :
    (s.withBuffer (s.buffer.setList (a + u.length) v)).reads a (u ++ v) := by
  intro k hk
  by_cases hu : k < u.length
  · rw [List.getElem_append_left hu, bufferByte_setList_outside (Or.inl (by omega))]
    exact h k hu
  · have hk' : k - u.length < v.length := by
      simp only [List.length_append] at hk
      omega
    rw [List.getElem_append_right (by omega)]
    have : a + k = (a + u.length) + (k - u.length) := by omega
    rw [this]
    exact reads_setList s s.buffer _ v _ hk'

/-- The pending bytes are what the buffer reads below the fill. -/
theorem reads_pending (s : State) : s.reads 0 s.pending := by
  intro k hk
  simp [State.pending]

@[simp] theorem length_pending (s : State) : s.pending.length = s.fill := by simp [State.pending]

/-- Bytes as many as the fill that the buffer reads from address 0 are the pending bytes. -/
theorem pending_of_reads {s : State} {v : List Byte} (h : s.reads 0 v) (hv : v.length = s.fill) : s.pending = v := by
  apply List.ext_getElem
  · simp [hv]
  · intro k h1 h2
    have := h k h2
    simpa [State.pending] using this

/-- Appending right behind held bytes holds the concatenation. -/
theorem holds_append_setList {s : State} {a : Nat} {u v : List Byte} (h : s.holds a u) :
    (s.withBuffer (s.buffer.setList (a + u.length) v)).holds a (u ++ v) := by
  intro k hk
  by_cases hu : k < u.length
  · rw [List.getElem_append_left hu]
    show (s.buffer.setList (a + u.length) v).byte? (a + k) = _
    rw [byte?_setList_outside (Or.inl (by omega))]
    exact h k hu
  · have hk' : k - u.length < v.length := by
      simp only [List.length_append] at hk
      omega
    rw [List.getElem_append_right (by omega)]
    have : a + k = (a + u.length) + (k - u.length) := by omega
    rw [this]
    exact byte?_setList_inside hk'

/-- Held bytes that are all specified below an address can be read off the buffer. -/
theorem holds_of_isSome {s : State} {n : Nat} (h : ∀ a, a < n → (s.buffer.byte? a).isSome = true) :
    s.holds 0 ((List.range n).map s.bufferByte) := by
  intro k hk
  have hk' : k < n := by simpa using hk
  obtain ⟨b, hb⟩ := Option.isSome_iff_exists.mp (h k hk')
  simp [State.bufferByte, hb]

end Sys2Proof.Machine
end

