-- ==== Sys2Proof/Laws/Message.lean ====
section
/-! SUPPORT. Laws/Message.lean: the chain over the blocks of a byte sequence, piece by piece, and the sizes of tails,
padding and digests. -/

namespace Sys2Proof.Machine

variable {σ : Type} (f : σ → List Byte → σ)

/-- A chain of `n` blocks reads the first `64 n` bytes only. -/
theorem chainBlocks_take (n : Nat) (st : σ) (x : List Byte) {k : Nat} (hk : 64 * n ≤ k) :
    chainBlocks f n st (x.take k) = chainBlocks f n st x := by
  induction n generalizing st x k with
  | zero => rfl
  | succ n ih =>
    simp only [chainBlocks, List.take_take, List.drop_take]
    rw [ih _ _ (by omega), min_eq_left (by omega)]

/-- A chain of `n + m` blocks is one of `n` blocks and then one of `m`. -/
theorem chainBlocks_add (n m : Nat) (st : σ) (x : List Byte) :
    chainBlocks f (n + m) st x = chainBlocks f m (chainBlocks f n st x) (x.drop (64 * n)) := by
  induction n generalizing st x with
  | zero => simp [chainBlocks]
  | succ n ih =>
    have : n + 1 + m = (n + m) + 1 := by omega
    rw [this]
    simp only [chainBlocks, ih, List.drop_drop]
    congr 2
    omega

/-- Whole blocks in front of `y` are chained first. -/
theorem chainBlocks_append {n : Nat} {x : List Byte} (hx : x.length = 64 * n) (m : Nat) (st : σ) (y : List Byte) :
    chainBlocks f (n + m) st (x ++ y) = chainBlocks f m (chainBlocks f n st x) y := by
  rw [chainBlocks_add, ← chainBlocks_take f n st (x ++ y) le_rfl, ← hx, List.take_left, List.drop_left]

/-- The full pieces of `x ++ y` are the full pieces of `x`, and then those of the tail of `x` with `y` behind it. -/
theorem chainBlocks_append_tail (st : σ) (x y : List Byte) :
    chainBlocks f ((x ++ y).length / 64) st (x ++ y) =
      chainBlocks f ((tailBytes x ++ y).length / 64) (chainBlocks f (x.length / 64) st x) (tailBytes x ++ y) := by
  have hlen : (x.take (64 * (x.length / 64))).length = 64 * (x.length / 64) := by
    simp only [List.length_take]
    omega
  have hsplit : x ++ y = x.take (64 * (x.length / 64)) ++ (tailBytes x ++ y) := by
    rw [tailBytes, ← List.append_assoc, List.take_append_drop]
  have hn : (x ++ y).length / 64 = x.length / 64 + (tailBytes x ++ y).length / 64 := by
    simp only [tailBytes, List.length_append, List.length_drop]
    omega
  rw [hn]
  conv_lhs => rw [hsplit]
  rw [chainBlocks_append f hlen, chainBlocks_take f _ st x le_rfl]

@[simp] theorem length_tailBytes (x : List Byte) : (tailBytes x).length = x.length % 64 := by
  simp only [tailBytes, List.length_drop]
  omega

/-- The tail of `x ++ y` is the tail of the tail of `x` with `y` behind it. -/
theorem tailBytes_append (x y : List Byte) : tailBytes (x ++ y) = tailBytes (tailBytes x ++ y) := by
  have hn : (x ++ y).length / 64 = x.length / 64 + (tailBytes x ++ y).length / 64 := by
    simp only [tailBytes, List.length_append, List.length_drop]
    omega
  have hdrop : (x ++ y).drop (64 * (x.length / 64)) = tailBytes x ++ y := by
    rw [List.drop_append_of_le_length (by omega)]
    rfl
  rw [tailBytes, hn, Nat.mul_add, ← List.drop_drop, hdrop]
  rfl

/-- A byte sequence shorter than a block is its own tail. -/
theorem tailBytes_of_lt {x : List Byte} (h : x.length < 64) : tailBytes x = x := by
  simp [tailBytes, Nat.div_eq_of_lt h]

/-! ### The chain seen through one algorithm's words -/

theorem chain_foldBlock_md5 (n : Nat) (h : StateWords) (x : List Byte) :
    (chainBlocks (foldBlock 0) n h x).md5 = chainBlocks transformMd5 n h.md5 x := by
  induction n generalizing h x with
  | zero => rfl
  | succ n ih => exact ih (foldBlock 0 h (x.take 64)) (x.drop 64)

theorem chain_foldBlock_sha256 (n : Nat) (h : StateWords) (x : List Byte) :
    (chainBlocks (foldBlock 1) n h x).sha256 = chainBlocks transformSha256 n h.sha256 x := by
  induction n generalizing h x with
  | zero => rfl
  | succ n ih => exact ih (foldBlock 1 h (x.take 64)) (x.drop 64)

theorem chainCtx_md5 (h : StateWords) (x : List Byte) : (chainCtx 0 h x).md5 = chainMd5 h.md5 x :=
  chain_foldBlock_md5 _ _ _

theorem chainCtx_sha256 (h : StateWords) (x : List Byte) : (chainCtx 1 h x).sha256 = chainSha256 h.sha256 x :=
  chain_foldBlock_sha256 _ _ _

/-- A sequence with no full block leaves the state words alone. -/
theorem chainCtx_of_lt {alg : Tag} {h : StateWords} {x : List Byte} (hx : x.length < 64) : chainCtx alg h x = h := by
  simp [chainCtx, Nat.div_eq_of_lt hx, chainBlocks]

/-! ### Sizes -/

@[simp] theorem length_zeros (n : Nat) : (zeros n).length = n := by simp [zeros]

@[simp] theorem length_le64bytes (v : DWord) : (le64bytes v).length = 8 := rfl

@[simp] theorem length_be64bytes (v : DWord) : (be64bytes v).length = 8 := rfl

@[simp] theorem length_lenBytes (alg : Tag) (v : DWord) : (lenBytes alg v).length = 8 := by
  unfold lenBytes
  split <;> rfl

theorem padZeros_eq (n : Nat) : padZeros n = (119 - n % 64) % 64 := by
  unfold padZeros
  omega

@[simp] theorem length_padBytes (alg : Tag) (n : Nat) (v : DWord) : (padBytes alg n v).length = padZeros n + 9 := by
  simp only [padBytes, List.length_append, length_zeros, length_lenBytes, List.length_cons, List.length_nil]
  omega

/-- The padding of a message depends on its length only through the fill. -/
theorem padBytes_mod (alg : Tag) (n : Nat) (v : DWord) : padBytes alg (n % 64) v = padBytes alg n v := by
  simp [padBytes, padZeros_eq]

@[simp] theorem length_serializeMd5 (w : Md5Words) : (serializeMd5 w).length = 16 := rfl

@[simp] theorem length_serializeSha256 (w : Sha256Words) : (serializeSha256 w).length = 32 := rfl

end Sys2Proof.Machine
end

