-- ==== Sys2Proof/Laws/Context.lean ====
section
/-! SUPPORT. Laws/Context.lean: one lemma for each shared operation of the context engine and the padding state machine,
saying everything it does when the tag is one of the two algorithms. Later proofs cite these and do not unfold the
operations. -/

namespace Sys2Proof.Machine

theorem bind_ok {ε α β : Type} (a : α) (f : α → Except ε β) : (Except.ok a >>= f) = f a := rfl

/-- `Transform_ctx` with a legal tag folds the block and touches nothing else. -/
theorem transformCtx_ok {s : State} (h : s.ctxAlg = 0 ∨ s.ctxAlg = 1) (blk : List Byte) :
    transformCtx blk s = .ok (s.withWords (foldBlock s.ctxAlg s.h blk)) := by
  rcases h with h | h <;> simp [transformCtx, foldBlock, h]

/-- R165's loop with a legal tag chains the blocks and touches nothing else. -/
theorem transformBlocks_ok {s : State} (h : s.ctxAlg = 0 ∨ s.ctxAlg = 1) (n : Nat) (x : List Byte) :
    transformBlocks n x s = .ok (s.withWords (chainBlocks (foldBlock s.ctxAlg) n s.h x)) := by
  induction n generalizing s x with
  | zero => rfl
  | succ n ih =>
    rw [transformBlocks, transformCtx_ok h, bind_ok, ih (by simpa using h)]
    rfl

/-- R165 when the payload fills the buffer: with the bytes `p` read below the fill, the state words chain the full blocks of
`p ++ data`, and the buffer holds exactly its tail. -/
theorem absorbBlocks_ok {s : State} (halg : s.ctxAlg = 0 ∨ s.ctxAlg = 1) {p : List Byte} (hp : s.reads 0 p)
    (hlt : p.length < 64) {data : List Byte} (hd : 64 - p.length ≤ data.length) :
    absorbBlocks p.length data s =
      .ok (((s.withWords (chainCtx s.ctxAlg s.h (p ++ data))).consumeBuffer).withBuffer
        (Memory.setList [] 0 (tailBytes (p ++ data)))) := by
  have htake : (data.take (64 - p.length)).length = 64 - p.length := by
    simp only [List.length_take]
    omega
  have hroom : p.length + (data.take (64 - p.length)).length ≤ 64 := by omega
  have hheld := reads_append_setList (v := data.take (64 - p.length)) hp
  rw [Nat.zero_add] at hheld
  have hblk : (p ++ data.take (64 - p.length)).length = 64 := by
    rw [List.length_append]
    omega
  have hread := memRead_of_reads hheld (by omega)
  rw [hblk] at hread
  have hn : (p ++ data).length / 64 = 1 + furtherBlocks (64 - p.length) data.length := by
    rw [List.length_append, furtherBlocks]
    omega
  have hsplit : p ++ data = (p ++ data.take (64 - p.length)) ++ data.drop (64 - p.length) := by
    rw [List.append_assoc, List.take_append_drop]
  have hchain : chainCtx s.ctxAlg s.h (p ++ data) =
      chainBlocks (foldBlock s.ctxAlg) (furtherBlocks (64 - p.length) data.length)
        (foldBlock s.ctxAlg s.h (p ++ data.take (64 - p.length))) (data.drop (64 - p.length)) := by
    rw [chainCtx, hn]
    conv_lhs => rw [hsplit]
    rw [chainBlocks_append _ (n := 1) (by omega)]
    simp [chainBlocks, List.take_of_length_le (le_of_eq hblk)]
  have htail : data.drop (64 - p.length + 64 * furtherBlocks (64 - p.length) data.length) = tailBytes (p ++ data) := by
    rw [tailBytes, hn, List.drop_append, List.drop_of_length_le (l := p) (by omega), List.nil_append]
    congr 1
    omega
  have hfit : 0 + (tailBytes (p ++ data)).length ≤ 64 := by
    rw [length_tailBytes]
    omega
  unfold absorbBlocks
  simp only
  rw [memWrite_ok hroom, bind_ok, hread, bind_ok, transformCtx_ok (by simpa using halg), bind_ok,
    transformBlocks_ok (by simpa using halg), bind_ok, htail,
    memWrite_ok hfit, hchain]
  rfl

/-- `absorb` (R165) in both branches. -/
theorem absorb_ok {s : State} (halg : s.ctxAlg = 0 ∨ s.ctxAlg = 1) {p : List Byte} (hp : s.reads 0 p) (hlt : p.length < 64)
    (data : List Byte) :
    absorb p.length data s =
      if 64 - p.length ≤ data.length then
        .ok (((s.withWords (chainCtx s.ctxAlg s.h (p ++ data))).consumeBuffer).withBuffer
        (Memory.setList [] 0 (tailBytes (p ++ data))))
      else .ok (s.withBuffer (s.buffer.setList p.length data)) := by
  unfold absorb
  split
  · next hd => exact absorbBlocks_ok halg hp hlt hd
  · exact memWrite_ok (by omega)

/-- `lenfield` with a legal tag. -/
theorem lenField_ok {alg : Tag} (h : alg = 0 ∨ alg = 1) (v : DWord) : lenField alg v = .ok (lenBytes alg v) := by
  rcases h with h | h <;> simp [lenField, lenBytes, h]

/-- `zeros` end to end. -/
theorem zeros_append (m n : Nat) : zeros m ++ zeros n = zeros (m + n) := by simp [zeros, List.replicate_append_replicate]

/-- A block of exactly 64 bytes is one step of the chain. -/
theorem chainCtx_block {alg : Tag} {h : StateWords} {x : List Byte} (hx : x.length = 64) :
    chainCtx alg h x = foldBlock alg h x := by
  simp [chainCtx, hx, chainBlocks, List.take_of_length_le (le_of_eq hx)]

/-- Two blocks are two steps of the chain. -/
theorem chainCtx_two_blocks {alg : Tag} {h : StateWords} {x y : List Byte} (hx : x.length = 64) (hy : y.length = 64) :
    chainCtx alg h (x ++ y) = foldBlock alg (foldBlock alg h x) y := by
  have hn : (x ++ y).length / 64 = 1 + 1 := by simp [hx, hy]
  rw [chainCtx, hn, chainBlocks_append _ (n := 1) hx]
  simp [chainBlocks, List.take_of_length_le (le_of_eq hx), List.take_of_length_le (le_of_eq hy)]

/-- R191's last three lines: with 56 bytes `q` read, write the length field behind them and transform the block. -/
theorem lengthBlock_ok {s : State} (halg : s.ctxAlg = 0 ∨ s.ctxAlg = 1) {q field : List Byte} (hq : s.reads 0 q)
    (hlen : q.length = 56) (hf : field.length = 8) :
    (do
      let s ← s.memWrite 56 field
      let blk ← s.memRead 0 64
      transformCtx blk s) =
    .ok ((s.withBuffer (s.buffer.setList 56 field)).withWords (foldBlock s.ctxAlg s.h (q ++ field))) := by
  have hheld := reads_append_setList (v := field) hq
  rw [Nat.zero_add, hlen] at hheld
  have hblk : (q ++ field).length = 64 := by simp [hlen, hf]
  have hread := memRead_of_reads hheld (by omega)
  rw [hblk] at hread
  rw [memWrite_ok (by omega), bind_ok, hread, bind_ok, transformCtx_ok (by simpa using halg)]
  rfl

/-- R191 up to the length field: 56 bytes `q` are then read, and with any length field behind them the block completes the
chain over `p`, the marker, the zeros and that field. -/
theorem padToLength_ok {s : State} (halg : s.ctxAlg = 0 ∨ s.ctxAlg = 1) {p : List Byte} (hp : s.reads 0 p)
    (hlt : p.length < 64) :
    ∃ m h q, padToLength p.length s = .ok ((s.withBuffer m).withWords h) ∧ (s.withBuffer m).reads 0 q ∧ q.length = 56 ∧
      ∀ field : List Byte, field.length = 8 → foldBlock s.ctxAlg h (q ++ field) =
        chainCtx s.ctxAlg s.h (p ++ ([0x80] ++ zeros (padZeros p.length) ++ field)) := by
  have hmark := reads_append_setList (v := [(0x80 : Byte)]) hp
  have hm1 : (p ++ [(0x80 : Byte)]).length = p.length + 1 := by simp
  have hz := reads_append_setList (v := zeros (if p.length + 1 > 56 then 64 - (p.length + 1) else 56 - (p.length + 1))) hmark
  rw [Nat.zero_add] at hmark
  rw [Nat.zero_add, Nat.zero_add, hm1] at hz
  by_cases h56 : p.length + 1 > 56
  · rw [if_pos h56] at hz
    have hblk : (p ++ [(0x80 : Byte)] ++ zeros (64 - (p.length + 1))).length = 64 := by simp; omega
    have hread := memRead_of_reads hz (by omega)
    rw [hblk] at hread
    refine ⟨((s.buffer.setList p.length [0x80]).setList (p.length + 1) (zeros (64 - (p.length + 1)))).setList 0 (zeros 56),
      foldBlock s.ctxAlg s.h (p ++ [0x80] ++ zeros (64 - (p.length + 1))), zeros 56, ?_,
      reads_setList s _ 0 (zeros 56), length_zeros 56, fun field hf => ?_⟩
    · unfold padToLength
      rw [memWrite_ok (by simp; omega), bind_ok]
      simp only [if_pos h56]
      unfold padFullBlock
      rw [memWrite_ok (by simp; omega), bind_ok, hread, bind_ok, transformCtx_ok (by simpa using halg), bind_ok,
        memWrite_ok (by simp)]
      simp only [withBuffer_withBuffer, withWords_withBuffer, withBuffer_buffer, withWords_buffer, withBuffer_ctxAlg,
        withBuffer_h]
    · have hsplit : p ++ ([0x80] ++ zeros (padZeros p.length) ++ field) =
          (p ++ [0x80] ++ zeros (64 - (p.length + 1))) ++ (zeros 56 ++ field) := by
        have : padZeros p.length = (64 - (p.length + 1)) + 56 := by
          rw [padZeros_eq]
          omega
        rw [this, ← zeros_append]
        simp
      rw [hsplit, chainCtx_two_blocks hblk (by simp [hf])]
  · rw [if_neg h56] at hz
    refine ⟨(s.buffer.setList p.length [0x80]).setList (p.length + 1) (zeros (56 - (p.length + 1))), s.h, p ++ [0x80] ++ zeros (56 - (p.length + 1)), ?_, hz, by simp; omega, fun field hf => ?_⟩
    · unfold padToLength
      rw [memWrite_ok (by simp; omega), bind_ok]
      simp only [if_neg h56]
      rw [memWrite_ok (by simp; omega)]
      simp only [withBuffer_withBuffer, withBuffer_buffer]
      rfl
    · have : padZeros p.length = 56 - (p.length + 1) := by
        rw [padZeros_eq]
        omega
      rw [this, ← chainCtx_block (by simp [hf]; omega)]
      simp

/-- `pad_and_transform()` (R191): with the bytes `p` read below the fill, the state words chain the blocks of `p` and its
padding, and apart from the buffer nothing else changes. -/
theorem padAndTransform_ok {s : State} (halg : s.ctxAlg = 0 ∨ s.ctxAlg = 1) {p : List Byte} (hp : s.reads 0 p)
    (hfill : p.length = s.fill) :
    ∃ m, padAndTransform s =
      .ok ((s.withBuffer m).withWords (chainCtx s.ctxAlg s.h (p ++ padBytes s.ctxAlg s.fill s.bitCount))) := by
  obtain ⟨m, h, q, hpad, hheld, hlen, hchain⟩ := padToLength_ok halg hp (by rw [hfill]; exact fill_lt s)
  have hheld' : ((s.withBuffer m).withWords h).reads 0 q := hheld
  refine ⟨m.setList 56 (lenBytes s.ctxAlg s.bitCount), ?_⟩
  unfold padAndTransform
  rw [← hfill, hpad, bind_ok, lenField_ok (by simpa using halg), bind_ok,
    lengthBlock_ok (by simpa using halg) hheld' hlen (by simp)]
  simp only [withWords_ctxAlg, withBuffer_ctxAlg, withWords_h, withWords_bitCount, withBuffer_bitCount]
  rw [hchain _ (by simp)]
  rfl

/-- The digest bytes of the state words, for tags 0 and 1. -/
def serialBytes (alg : Tag) (h : StateWords) : List Byte := if alg = 0 then serializeMd5 h.md5 else serializeSha256 h.sha256

/-- `serialize` with a legal tag. -/
theorem serialize_ok {alg : Tag} (h : alg = 0 ∨ alg = 1) (w : StateWords) : serialize alg w = .ok (serialBytes alg w) := by
  rcases h with h | h <;> simp [serialize, serialBytes, h]

end Sys2Proof.Machine
end

