-- ==== Sys2Proof/Laws/Exec.lean ====
section
/-! SUPPORT. Laws/Exec.lean: the next states of UPDATE and FINAL in closed form, and what `exec` can answer: one lemma for
its next states and one for its faults. Later proofs cite these and unfold no meaning. -/

namespace Sys2Proof.Machine

/-- The state a successful UPDATE leaves when the payload does not fill the buffer. -/
def shortUpdate (data : List Byte) (s : State) : State :=
  { s.withBuffer (s.buffer.setList s.fill data) with
    bitCount := s.bitCount + BitVec.ofNat 64 (8 * data.length), lc := .accum }

/-- The state a successful UPDATE leaves when the payload fills the buffer. -/
def longUpdate (data : List Byte) (s : State) : State :=
  { s with
    h := chainCtx s.ctxAlg s.h (s.pending ++ data)
    buffer := Memory.setList [] 0 (tailBytes (s.pending ++ data))
    byteDraws := s.byteDraws + 1
    bitCount := s.bitCount + BitVec.ofNat 64 (8 * data.length)
    lc := .accum }

/-- The state words a successful FINAL leaves. -/
def finalWords (s : State) : StateWords :=
  chainCtx s.ctxAlg s.h (s.pending ++ padBytes s.ctxAlg s.fill s.bitCount)

/-- The state a successful FINAL leaves. -/
def finalState (s : State) : State :=
  { s with
    h := finalWords s
    buffer := []
    byteDraws := s.byteDraws + 1
    digestValid := true
    digest := serialBytes s.ctxAlg (finalWords s) ++
      zeros (Config.digestBytes - (serialBytes s.ctxAlg (finalWords s)).length)
    lc := .finalized }

variable {s : State}

theorem appendPayload_short {data : List Byte} (h : data.length < 64 - s.fill) :
    appendPayload data s = .ok (shortUpdate data s) := by
  unfold appendPayload absorb
  rw [if_neg (by omega), memWrite_ok (by omega)]
  rfl

theorem appendPayload_long (halg : s.ctxAlg = 0 ∨ s.ctxAlg = 1) {data : List Byte} (h : 64 - s.fill ≤ data.length) :
    appendPayload data s = .ok (longUpdate data s) := by
  have hr : State.reads { s with bitCount := s.bitCount + BitVec.ofNat 64 (8 * data.length) } 0 s.pending :=
    reads_pending s
  have := absorb_ok (s := { s with bitCount := s.bitCount + BitVec.ofNat 64 (8 * data.length) }) halg hr
    (by rw [length_pending]; exact fill_lt s) data
  rw [length_pending, if_pos h] at this
  unfold appendPayload
  rw [this]
  rfl

/-- A tag without a transform faults where a transform would run (log entry 8). -/
theorem transformCtx_illegal (halg : ¬ (s.ctxAlg = 0 ∨ s.ctxAlg = 1)) (blk : List Byte) :
    transformCtx blk s = .error (.undefinedAlgorithm s.ctxAlg) := by
  rw [not_or] at halg
  rw [transformCtx, if_neg halg.1, if_neg halg.2]

theorem appendPayload_illegal (halg : ¬ (s.ctxAlg = 0 ∨ s.ctxAlg = 1)) {data : List Byte}
    (h : 64 - s.fill ≤ data.length) : appendPayload data s = .error (.undefinedAlgorithm s.ctxAlg) := by
  have hlt := fill_lt s
  have hw : s.fill + (data.take (64 - s.fill)).length ≤ 64 := by
    simp only [List.length_take]
    omega
  unfold appendPayload absorb
  rw [if_pos h]
  unfold absorbBlocks
  simp only
  rw [memWrite_ok hw, bind_ok, memRead_ok (by decide), bind_ok, transformCtx_illegal (by simpa using halg)]
  rfl

theorem emitDigest_ok (halg : s.ctxAlg = 0 ∨ s.ctxAlg = 1) : emitDigest s = .ok (finalState s) := by
  obtain ⟨m, hm⟩ := padAndTransform_ok halg (reads_pending s) (length_pending s)
  unfold emitDigest
  rw [hm, bind_ok, serialize_ok (by simpa using halg)]
  rfl

theorem emitDigest_illegal (halg : ¬ (s.ctxAlg = 0 ∨ s.ctxAlg = 1)) :
    emitDigest s = .error (.undefinedAlgorithm s.ctxAlg) := by
  have hlt := fill_lt s
  have hpad : padAndTransform s = .error (.undefinedAlgorithm s.ctxAlg) := by
    have h01 := not_or.mp halg
    unfold padAndTransform padToLength
    rw [memWrite_ok (by simp; omega), bind_ok]
    simp only
    split
    · unfold padFullBlock
      rw [memWrite_ok (by simp; omega), bind_ok, memRead_ok (by decide), bind_ok, transformCtx_illegal (by simpa using halg)]
      rfl
    · rw [memWrite_ok (by simp; omega), bind_ok]
      simp only [withBuffer_ctxAlg]
      rw [lenField, if_neg h01.1, if_neg h01.2]
      rfl
  unfold emitDigest
  rw [hpad]
  rfl

/-- The context does not take an UPDATE or a FINAL exactly in the two states R246 names. -/
theorem not_open_iff : ¬ s.Open ↔ s.lc = .uninit ∨ s.lc = .finalized := by
  unfold State.Open
  cases s.lc <;> simp

/-- What INIT answers. -/
theorem execInit_eq (alg : Tag) :
    execInit alg s = .next (if alg = 0 ∨ alg = 1 then startContext alg s else s.raise .algNotFound) := by
  unfold execInit
  split <;> rfl

/-- Everything a next state of `exec` can be. -/
theorem exec_next {i : Instr} {t : State} (h : exec i s = .next t) :
    (∃ alg, i = .init alg ∧ (alg = 0 ∨ alg = 1) ∧ t = startContext alg s) ∨
    (∃ alg, i = .init alg ∧ ¬ (alg = 0 ∨ alg = 1) ∧ t = s.raise .algNotFound) ∨
    (((∃ data, i = .update data) ∨ i = .final) ∧ s.err ≠ .none ∧ t = s) ∨
    (((∃ data, i = .update data) ∨ i = .final) ∧ s.err = .none ∧ ¬ s.Open ∧ t = s.raise .seqErr) ∨
    (∃ data, i = .update data ∧ s.err = .none ∧ s.Open ∧ 2 ^ 64 ≤ s.bitCount.toNat + 8 * data.length ∧
      t = s.raise .lenOvf) ∨
    (∃ data, i = .update data ∧ s.err = .none ∧ s.Open ∧ s.bitCount.toNat + 8 * data.length < 2 ^ 64 ∧
      data.length < 64 - s.fill ∧ t = shortUpdate data s) ∨
    (∃ data, i = .update data ∧ s.err = .none ∧ s.Open ∧ s.bitCount.toNat + 8 * data.length < 2 ^ 64 ∧
      64 - s.fill ≤ data.length ∧ (s.ctxAlg = 0 ∨ s.ctxAlg = 1) ∧ t = longUpdate data s) ∨
    (i = .final ∧ s.err = .none ∧ s.Open ∧ (s.ctxAlg = 0 ∨ s.ctxAlg = 1) ∧ t = finalState s) ∨
    (∃ alg, i = .lookup alg ∧ ∃ d found, (if found then descriptorOf alg = some d else d = Descriptor.zero) ∧
      t = s.setDesc d found) ∨
    (∃ words, ((∃ st blk, i = .md5Transform st blk) ∨ ∃ st blk, i = .sha256Transform st blk) ∧
      t = { s with unitReply := some words }) := by
  cases i with
  | init alg =>
    rw [exec, execInit_eq] at h
    split at h <;> simp_all
  | update data =>
    simp only [exec, execUpdate] at h
    split_ifs at h with h1 h2 h3
    · simp_all
    · simp_all [not_open_iff]
    · have : s.Open := not_not.mp (fun hn => h2 (not_open_iff.mp hn))
      simp_all
    · have ho : s.Open := not_not.mp (fun hn => h2 (not_open_iff.mp hn))
      rcases Nat.lt_or_ge data.length (64 - s.fill) with hs | hl
      · rw [appendPayload_short hs] at h
        simp_all [ofResult]
      · by_cases halg : s.ctxAlg = 0 ∨ s.ctxAlg = 1
        · rw [appendPayload_long halg hl] at h
          refine Or.inr (Or.inr (Or.inr (Or.inr (Or.inr (Or.inr (Or.inl ?_))))))
          exact ⟨data, rfl, by simpa using h1, ho, by omega, hl, halg, by simpa [ofResult] using h.symm⟩
        · rw [appendPayload_illegal halg hl] at h
          simp [ofResult] at h
  | final =>
    simp only [exec, execFinal] at h
    split_ifs at h with h1 h2
    · simp_all
    · simp_all [not_open_iff]
    · have ho : s.Open := not_not.mp (fun hn => h2 (not_open_iff.mp hn))
      by_cases halg : s.ctxAlg = 0 ∨ s.ctxAlg = 1
      · rw [emitDigest_ok halg] at h
        refine Or.inr (Or.inr (Or.inr (Or.inr (Or.inr (Or.inr (Or.inr (Or.inl ?_)))))))
        exact ⟨rfl, by simpa using h1, ho, halg, by simpa [ofResult] using h.symm⟩
      · rw [emitDigest_illegal halg] at h
        simp [ofResult] at h
  | lookup alg =>
    simp only [exec, execLookup] at h
    refine Or.inr (Or.inr (Or.inr (Or.inr (Or.inr (Or.inr (Or.inr (Or.inr (Or.inl ?_))))))))
    split at h
    · next d hd => exact ⟨alg, rfl, d, true, by simpa using hd, by simpa using h.symm⟩
    · exact ⟨alg, rfl, Descriptor.zero, false, by simp, by simpa using h.symm⟩
  | md5Transform st blk =>
    simp only [exec, execMd5Transform] at h
    refine Or.inr (Or.inr (Or.inr (Or.inr (Or.inr (Or.inr (Or.inr (Or.inr (Or.inr ?_))))))))
    exact ⟨_, Or.inl ⟨st, blk, rfl⟩, by simpa using h.symm⟩
  | sha256Transform st blk =>
    simp only [exec, execSha256Transform] at h
    refine Or.inr (Or.inr (Or.inr (Or.inr (Or.inr (Or.inr (Or.inr (Or.inr (Or.inr ?_))))))))
    exact ⟨_, Or.inr ⟨st, blk, rfl⟩, by simpa using h.symm⟩

/-- The only fault of `exec` is a tag without a transform, and no instruction is refused. -/
theorem exec_not_next {i : Instr} :
    (∀ f, exec i s = .fault f → f = .undefinedAlgorithm s.ctxAlg ∧ ¬ (s.ctxAlg = 0 ∨ s.ctxAlg = 1)) ∧
    ∀ r, exec i s ≠ .refused r := by
  cases i with
  | init alg => simp [exec, execInit_eq]
  | update data =>
    simp only [exec, execUpdate]
    split_ifs
    · simp
    · simp
    · simp
    · rcases Nat.lt_or_ge data.length (64 - s.fill) with hs | hl
      · simp [appendPayload_short hs, ofResult]
      · by_cases halg : s.ctxAlg = 0 ∨ s.ctxAlg = 1
        · simp [appendPayload_long halg hl, ofResult]
        · rw [appendPayload_illegal halg hl]
          exact ⟨fun f hf => ⟨by simpa [ofResult] using hf.symm, halg⟩, by simp [ofResult]⟩
  | final =>
    simp only [exec, execFinal]
    split_ifs
    · simp
    · simp
    · by_cases halg : s.ctxAlg = 0 ∨ s.ctxAlg = 1
      · simp [emitDigest_ok halg, ofResult]
      · rw [emitDigest_illegal halg]
        exact ⟨fun f hf => ⟨by simpa [ofResult] using hf.symm, halg⟩, by simp [ofResult]⟩
  | lookup alg =>
    simp only [exec, execLookup]
    split <;> simp
  | md5Transform st blk => simp [exec, execMd5Transform]
  | sha256Transform st blk => simp [exec, execSha256Transform]

/-- An UPDATE that passes the checks of R240 runs its effect. -/
theorem exec_update_ok {data : List Byte} (h1 : s.err = .none) (h2 : s.Open)
    (h3 : s.bitCount.toNat + 8 * data.length < 2 ^ 64) : exec (.update data) s = ofResult (appendPayload data s) := by
  have hlc : ¬ (s.lc = .uninit ∨ s.lc = .finalized) := fun h => not_open_iff.mpr h h2
  rw [exec, execUpdate, if_neg (by simp [h1]), if_neg hlc, if_neg (by omega)]

/-- A FINAL that passes the checks of R240, with a legal tag, leaves `finalState`. -/
theorem exec_final_ok (h1 : s.err = .none) (h2 : s.Open) (halg : s.ctxAlg = 0 ∨ s.ctxAlg = 1) :
    exec .final s = .next (finalState s) := by
  have hlc : ¬ (s.lc = .uninit ∨ s.lc = .finalized) := fun h => not_open_iff.mpr h h2
  rw [exec, execFinal, if_neg (by simp [h1]), if_neg hlc, emitDigest_ok halg, ofResult]

end Sys2Proof.Machine
end

