-- ==== Sys2Proof/Laws/Step.lean ====
section
/-! SUPPORT. Laws/Step.lean: everything one step can be, when it answers a next state and when it does not, and how an
instruction can change `STATUS.ERR`. Later proofs cite these and do not unfold `step`. -/

namespace Sys2Proof.Machine

variable {s t : State}

/-- Everything a step to a next state can be: a request served, an idle step, a decoded transaction run, an ILLEGAL word,
a register read, or hardware reset. -/
theorem step_next (h : step s = .next t) :
    (∃ r i, s.unitReq = some r ∧ decodeUnit r = .ok i ∧ exec i { s with unitReq := none } = .next t) ∨
    (s.unitReq = none ∧ s.inbox = [] ∧ t = s) ∨
    (∃ tr rest i, s.unitReq = none ∧ s.inbox = .command tr :: rest ∧ decodeTransaction tr = .ok i ∧
      exec i { s with inbox := rest } = .next t) ∨
    (∃ tr rest why, s.unitReq = none ∧ s.inbox = .command tr :: rest ∧ decodeTransaction tr = .error (.illegal why) ∧
      t = State.raise { s with inbox := rest } .illegalCmd) ∨
    (∃ n rest v, s.unitReq = none ∧ s.inbox = .read n :: rest ∧ s.register? n = some v ∧
      t = { s with inbox := rest, readData := some v }) ∨
    (∃ rest, s.unitReq = none ∧ s.inbox = .reset :: rest ∧ t = hardwareReset { s with inbox := rest }) := by
  unfold step nextMove at h
  split at h
  · next r hr =>
    unfold runUnitRequest at h
    split at h
    · next i hi => exact .inl ⟨r, i, hr, hi, h⟩
    · simp at h
  · next hr =>
    split at h
    · next hi => exact .inr (.inl ⟨hr, hi, by simpa using h.symm⟩)
    · next e rest hi =>
      cases e with
      | command tr =>
        simp only [runEvent, runTransaction] at h
        split at h
        · next i hd => exact .inr (.inr (.inl ⟨tr, rest, i, hr, hi, hd, h⟩))
        · next why hd => exact .inr (.inr (.inr (.inl ⟨tr, rest, why, hr, hi, hd, by simpa using h.symm⟩)))
        · simp at h
      | read n =>
        simp only [runEvent, hostRead] at h
        split at h
        · next v hv =>
          exact .inr (.inr (.inr (.inr (.inl ⟨n, rest, v, hr, hi, hv, by simpa using h.symm⟩))))
        · simp at h
      | reset => exact .inr (.inr (.inr (.inr (.inr ⟨rest, hr, hi, by simpa [runEvent] using h.symm⟩))))

/-- A step that does not answer a next state: a transform with `CTX_ALG` 2 or 3 faults, and the host's framing, a register
number without a register or a malformed request is refused. -/
theorem step_not_next :
    (∀ f, step s = .fault f → f = .undefinedAlgorithm s.ctxAlg ∧ ¬ (s.ctxAlg = 0 ∨ s.ctxAlg = 1)) ∧
    ∀ r, step s = .refused r → (r = .payloadFraming ∧ s.unitReq = none) ∨
      (∃ n, s.register? n = none ∧ r = .noSuchRegister n ∧ s.unitReq = none) ∨ (r = .unitFraming ∧ s.unitReq ≠ none) := by
  unfold step nextMove
  split
  · next q hq =>
    unfold runUnitRequest
    split
    · next i hi =>
      exact ⟨fun f hf => (exec_not_next (s := { s with unitReq := none })).1 f hf,
        fun r hr => absurd hr ((exec_not_next (s := { s with unitReq := none })).2 r)⟩
    · exact ⟨fun f hf => by simp at hf, fun r hr => .inr (.inr ⟨by simpa using hr.symm, by simp [hq]⟩)⟩
  · next hq =>
    split
    · exact ⟨fun f hf => by simp at hf, fun r hr => by simp at hr⟩
    · next e rest hi =>
      cases e with
      | command tr =>
        simp only [runEvent, runTransaction]
        split
        · next i hd =>
          exact ⟨fun f hf => (exec_not_next (s := { s with inbox := rest })).1 f hf,
            fun r hr => absurd hr ((exec_not_next (s := { s with inbox := rest })).2 r)⟩
        · exact ⟨fun f hf => by simp at hf, fun r hr => by simp at hr⟩
        · exact ⟨fun f hf => by simp at hf, fun r hr => .inl ⟨by simpa using hr.symm, hq⟩⟩
      | read n =>
        simp only [runEvent, hostRead]
        split
        · exact ⟨fun f hf => by simp at hf, fun r hr => by simp at hr⟩
        · next hv => exact ⟨fun f hf => by simp at hf, fun r hr => .inr (.inl ⟨n, hv, by simpa using hr.symm, hq⟩)⟩
      | reset => exact ⟨fun f hf => by simp [runEvent] at hf, fun r hr => by simp [runEvent] at hr⟩

/-- A request at the transform units decodes to a transform. -/
theorem decodeUnit_transform {r : UnitRequest} {i : Instr} (h : decodeUnit r = .ok i) :
    (∃ st blk, i = .md5Transform st blk) ∨ ∃ st blk, i = .sha256Transform st blk := by
  unfold decodeUnit at h
  split_ifs at h
  · split at h
    · exact .inl ⟨_, _, by simpa using h.symm⟩
    · simp at h
  · split at h
    · exact .inr ⟨_, _, by simpa using h.symm⟩
    · simp at h

/-- An instruction that changes `STATUS.ERR` either records a first error and changes nothing else, or is a successful
INIT. -/
theorem exec_err {i : Instr} (h : exec i s = .next t) (hne : t.err ≠ s.err) :
    (s.err = .none ∧ t = { s with err := t.err }) ∨
    (t.err = .none ∧ ∃ alg, i = .init alg ∧ (alg = 0 ∨ alg = 1)) := by
  rcases exec_next h with ⟨a, rfl, ha, rfl⟩ | ⟨a, rfl, ha, rfl⟩ | ⟨-, -, rfl⟩ | ⟨-, h1, -, rfl⟩ | ⟨-, -, h1, -, -, rfl⟩ |
    ⟨d, -, h1, -, -, -, rfl⟩ | ⟨d, -, -, -, -, -, -, rfl⟩ | ⟨-, -, -, -, rfl⟩ | ⟨a, -, d, f, -, rfl⟩ | ⟨w, -, rfl⟩
  · exact .inr ⟨rfl, a, rfl, ha⟩
  · have h1 : s.err = .none := by
      by_contra hc
      exact hne (by rw [raise_of_err hc])
    exact .inl ⟨h1, by rw [raise_of_none h1]⟩
  · exact absurd rfl hne
  · exact .inl ⟨h1, by rw [raise_of_none h1]⟩
  · exact .inl ⟨h1, by rw [raise_of_none h1]⟩
  · exact absurd rfl hne
  · exact absurd rfl hne
  · exact absurd rfl hne
  · exact absurd rfl hne
  · exact absurd rfl hne

/-- Instructions run one list after the other. -/
theorem runInstrs_append {l : List Instr} (h : runInstrs l s = .next t) (l' : List Instr) :
    runInstrs (l ++ l') s = runInstrs l' t := by
  induction l generalizing s with
  | nil =>
    obtain rfl : s = t := by simpa [runInstrs] using h
    rfl
  | cons i l ih =>
    simp only [runInstrs, List.cons_append] at h ⊢
    split at h
    · exact ih h
    · simp at h
    · simp at h

end Sys2Proof.Machine
end

