-- ==== Sys2Proof/Laws/Absorbed.lean ====
section
/-! SUPPORT. Laws/Absorbed.lean: what it gives that a context has absorbed a message, and that INIT, UPDATE and FINAL keep
or use it. -/

namespace Sys2Proof.Machine

variable {s : State} {m : List Byte}

/-- A context that has absorbed a message has one of the two algorithms. -/
theorem absorbed_alg (h : s.Absorbed m) : s.ctxAlg = 0 ∨ s.ctxAlg = 1 := h.1.imp And.left And.left

/-- The fill is the message's length modulo 64. -/
theorem absorbed_fill (h : s.Absorbed m) : s.fill = m.length % 64 := by
  have := h.2.1
  simp only [State.fill]
  omega

/-- The pending bytes are the message's tail. -/
theorem absorbed_pending (h : s.Absorbed m) : s.pending = tailBytes m :=
  pending_of_reads (reads_of_holds h.2.2) (by rw [absorbed_fill h, length_tailBytes])

/-- Chaining the pending bytes and `y` from the current state words is chaining the whole message and `y` from the
initial ones. -/
theorem absorbed_chain (h : s.Absorbed m) (y : List Byte) :
    (s.ctxAlg = 0 → (chainCtx s.ctxAlg s.h (s.pending ++ y)).md5 = chainMd5 md5Initial (m ++ y)) ∧
    (s.ctxAlg = 1 → (chainCtx s.ctxAlg s.h (s.pending ++ y)).sha256 = chainSha256 sha256Initial (m ++ y)) := by
  have h01 : ¬ (0 : Tag) = 1 := by decide
  rw [absorbed_pending h]
  rcases h.1 with ⟨ha, hc⟩ | ⟨ha, hc⟩
  · refine ⟨fun _ => ?_, fun hb => absurd (ha.symm.trans hb) h01⟩
    rw [ha, chainCtx_md5, hc]
    exact (chainBlocks_append_tail transformMd5 md5Initial m y).symm
  · refine ⟨fun hb => absurd (hb.symm.trans ha) h01, fun _ => ?_⟩
    rw [ha, chainCtx_sha256, hc]
    exact (chainBlocks_append_tail transformSha256 sha256Initial m y).symm

/-- The bit count after an UPDATE that does not overflow. -/
theorem toNat_bitCount_add {n : Nat} (h : s.bitCount.toNat + 8 * n < 2 ^ 64) :
    (s.bitCount + BitVec.ofNat 64 (8 * n)).toNat = s.bitCount.toNat + 8 * n := by
  rw [BitVec.toNat_add, BitVec.toNat_ofNat, Nat.mod_eq_of_lt (a := 8 * n) (by omega), Nat.mod_eq_of_lt h]

/-- The state of a successful UPDATE has absorbed the payload behind the message, in both branches of R165. -/
theorem absorbed_update (h : s.Absorbed m) {data : List Byte} (hf : s.bitCount.toNat + 8 * data.length < 2 ^ 64) :
    (data.length < 64 - s.fill → (shortUpdate data s).Absorbed (m ++ data)) ∧
    (longUpdate data s).Absorbed (m ++ data) := by
  have hb : (s.bitCount + BitVec.ofNat 64 (8 * data.length)).toNat = 8 * (m ++ data).length := by
    rw [toNat_bitCount_add hf, h.2.1, List.length_append]
    omega
  have hcs := absorbed_chain h data
  refine ⟨fun hs => ⟨?_, hb, ?_⟩, ?_, hb, ?_⟩
  · rw [chainCtx_of_lt (by simp; omega)] at hcs
    exact h.1.imp (fun ha => ⟨ha.1, hcs.1 ha.1⟩) (fun ha => ⟨ha.1, hcs.2 ha.1⟩)
  · have hfill := absorbed_fill h
    have hheld := holds_append_setList (v := data) h.2.2
    rw [Nat.zero_add, length_tailBytes, ← hfill] at hheld
    rw [tailBytes_append, tailBytes_of_lt (x := tailBytes m ++ data) (by simp; omega)]
    exact hheld
  · exact h.1.imp (fun ha => ⟨ha.1, hcs.1 ha.1⟩) (fun ha => ⟨ha.1, hcs.2 ha.1⟩)
  · rw [tailBytes_append, ← absorbed_pending h]
    exact holds_setList s [] _ _

/-- A context INIT starts has absorbed the empty message. -/
theorem absorbed_startContext (s : State) {alg : Tag} (h : alg = 0 ∨ alg = 1) : (startContext alg s).Absorbed [] := by
  refine ⟨?_, by simp, holds_nil _ _⟩
  rcases h with rfl | rfl
  · exact .inl ⟨rfl, rfl⟩
  · exact .inr ⟨rfl, rfl⟩

/-- Whether a message is absorbed depends on the state words, the tag, the bit count and the buffer alone. -/
theorem absorbed_congr {t : State} (hh : t.h = s.h) (ha : t.ctxAlg = s.ctxAlg) (hb : t.bitCount = s.bitCount)
    (hm : t.buffer = s.buffer) : t.Absorbed m ↔ s.Absorbed m := by
  simp [State.Absorbed, State.chained, State.holds, hh, ha, hb, hm]

end Sys2Proof.Machine
end

