-- ==== Sys2Proof/Laws/Decode.lean ====
section
/-! SUPPORT. Laws/Decode.lean: the fields of an assembled command word, and a command word from its fields. -/

namespace Sys2Proof

variable (op : BitVec 4) (alg : Tag) (len : BitVec 24)

@[simp] theorem opField_commandWord : opField (commandWord op alg len) = op := by
  apply BitVec.eq_of_getLsbD_eq
  intro i hi
  have h1 : i < 8 := by omega
  have h2 : i < 32 := by omega
  simp [opField, commandWord, hi, h1, h2]

@[simp] theorem algField_commandWord : algField (commandWord op alg len) = alg := by
  apply BitVec.eq_of_getLsbD_eq
  intro i hi
  have h1 : 4 + i < 8 := by omega
  have h2 : 4 + i < 32 := by omega
  simp [algField, commandWord, hi, h1, h2]

@[simp] theorem rsvField_commandWord : rsvField (commandWord op alg len) = 0 := by
  apply BitVec.eq_of_getLsbD_eq
  intro i hi
  have h1 : 6 + i < 8 := by omega
  have h2 : 6 + i < 32 := by omega
  have h3 : op.getLsbD (6 + i) = false := BitVec.getLsbD_of_ge _ _ (by omega)
  have h4 : BitVec.getLsbD alg (6 + i - 4) = false := BitVec.getLsbD_of_ge _ _ (by omega)
  simp [rsvField, commandWord, h1, h2, h3, h4]

@[simp] theorem lenField24_commandWord : lenField24 (commandWord op alg len) = len := by
  apply BitVec.eq_of_getLsbD_eq
  intro i hi
  have h1 : ¬ 8 + i < 8 := by omega
  have h2 : 8 + i < 32 := by omega
  have h3 : op.getLsbD (8 + i) = false := BitVec.getLsbD_of_ge _ _ (by omega)
  have h4 : BitVec.getLsbD alg (8 + i - 4) = false := BitVec.getLsbD_of_ge _ _ (by omega)
  simp [lenField24, commandWord, hi, h1, h2, h3, h4]

/-- A command word whose `RSV` is zero is made of its other three fields. -/
theorem commandWord_fields {w : BitVec 32} (h : rsvField w = 0) :
    commandWord (opField w) (algField w) (lenField24 w) = w := by
  apply BitVec.eq_of_getLsbD_eq
  intro i hi
  have h6 : w.getLsbD 6 = false := by simpa [rsvField] using congrArg (fun v => v.getLsbD 0) h
  have h7 : w.getLsbD 7 = false := by simpa [rsvField] using congrArg (fun v => v.getLsbD 1) h
  interval_cases i <;> simp [commandWord, opField, algField, lenField24] <;> simp_all

/-- A word of a known `OP` is well-formed exactly when its must-be-zero fields are zero. -/
theorem illFormed_eq_none {w : BitVec 32} {a l : Bool} :
    illFormed w a l = none ↔ rsvField w = 0 ∧ (a = true → algField w = 0) ∧ (l = true → lenField24 w = 0) := by
  unfold illFormed
  split_ifs <;> simp_all

theorem match_illFormed_ok {w : BitVec 32} {a l : Bool} {c d : Command} :
    (match illFormed w a l with
      | some why => Except.error why
      | none => Except.ok c) = Except.ok d ↔ illFormed w a l = none ∧ c = d := by
  cases illFormed w a l <;> simp

/-- The command word of a command: its fields as R75's table gives them. -/
def Command.toWord : Command → BitVec 32
  | .init alg => commandWord 0x1 alg 0
  | .update len => commandWord 0x2 0 len
  | .final => commandWord 0x3 0 0
  | .lookup alg => commandWord 0x4 alg 0

/-- Decoding gives each command from its own word. -/
theorem decodeWord_toWord (c : Command) : decodeWord c.toWord = .ok c := by
  cases c <;> simp [Command.toWord, decodeWord, illFormed]

/-- A word that decodes to a command is that command's word: R76 read backwards. -/
theorem eq_toWord_of_decodeWord {w : BitVec 32} {c : Command} (h : decodeWord w = .ok c) : w = c.toWord := by
  unfold decodeWord at h
  split_ifs at h with h1 h2 h3 h4
  all_goals
    obtain ⟨hn, rfl⟩ := match_illFormed_ok.mp h
    obtain ⟨hr, ha, hl⟩ := illFormed_eq_none.mp hn
    rw [← commandWord_fields hr]
    simp_all [Command.toWord]

end Sys2Proof
end

