-- ==== Sys2Proof/Laws/PerInstr.lean ====
section
/-! SUPPORT. Laws/PerInstr.lean: facts about each instruction as syntax. RowMatch: the encoding of a well-formed instruction
selects that instruction's row of spec/opcode_table.json by the row's match and mask (R75, R79). -/

namespace Sys2Proof.Laws

/-- The bits of an encoding that the opcode table numbers: the command word, or the one bit `UNIT`. -/
def tableBits : Encoded → BitVec 32
  | .command t => t.word
  | .unit r => r.unit.setWidth 32

/-- The match and the mask of an instruction's row of spec/opcode_table.json. -/
def tableRow : Instr → BitVec 32 × BitVec 32
  | .init _ => (0x00000001, 0xFFFFFFCF)
  | .update _ => (0x00000002, 0x000000FF)
  | .final => (0x00000003, 0xFFFFFFFF)
  | .lookup _ => (0x00000004, 0xFFFFFFCF)
  | .md5Transform _ _ => (0x0, 0x1)
  | .sha256Transform _ _ => (0x1, 0x1)

/-- The encoding of `i` selects the opcode-table row of `i`. -/
def RowMatch.Statement (i : Instr) : Prop :=
  i.wellFormed = true → tableBits (encode i) &&& (tableRow i).2 = (tableRow i).1

theorem RowMatch.init (alg : Tag) : RowMatch.Statement (.init alg) := by
  intro _
  revert alg
  decide

theorem RowMatch.update (data : List Byte) : RowMatch.Statement (.update data) := by
  intro _
  show commandWord 0x2 0 (BitVec.ofNat 24 data.length) &&& 0xFF = 2
  generalize BitVec.ofNat 24 data.length = len
  apply BitVec.eq_of_getLsbD_eq
  intro i hi
  interval_cases i <;> simp [commandWord]

theorem RowMatch.final : RowMatch.Statement .final := by
  intro _
  decide

theorem RowMatch.lookup (alg : Tag) : RowMatch.Statement (.lookup alg) := by
  intro _
  revert alg
  decide

theorem RowMatch.md5Transform (st : Md5Words) (blk : List Byte) : RowMatch.Statement (.md5Transform st blk) := by
  intro _
  simp [encode, tableBits, tableRow]

theorem RowMatch.sha256Transform (st : Sha256Words) (blk : List Byte) : RowMatch.Statement (.sha256Transform st blk) := by
  intro _
  simp [encode, tableBits, tableRow]

end Sys2Proof.Laws
end

