-- ==== Sys2Proof/Tests/Slice0.lean ====
section
/-! SUPPORT. Tests/Slice0.lean: ill-formed terms refused, decoding of words written out from the spec, at most two steps
tested per instruction with the values of 95_test_vectors.md, and a witness for the hypotheses of every statement that has
some. Every expected value is the spec's. -/

namespace Sys2Proof.Tests

open Sys2Proof Sys2Proof.Machine

/-! ### Helpers -/

/-- "abc". -/
def abc : List Byte := [0x61, 0x62, 0x63]

/-- A context of an algorithm that has absorbed a message, made without running a command; the words of `H` that MD5 does
not use are 0. -/
def context (alg : Tag) (m : List Byte) : State :=
  { State.reset with
    h := if alg = 0 then StateWords.zero.withMd5 (chainMd5 md5Initial m) else StateWords.ofSha256 (chainSha256 sha256Initial m)
    bitCount := BitVec.ofNat 64 (8 * m.length)
    buffer := Memory.setList [] 0 (tailBytes m)
    ctxAlg := alg
    lc := .accum }

/-- A finalized context that shows the digest of a message. -/
def finished (alg : Tag) (m : List Byte) : State :=
  { context alg m with buffer := [], lc := .finalized, digestValid := true, digest := digestRegister alg m }

/-- A state with an event first at its port. -/
def atPort (s : State) (e : PortEvent) : State := { s with inbox := [e] }

/-- A state with a command word and its payload first at its port. -/
def command (s : State) (w : BitVec 32) (payload : List Byte) : State := atPort s (.command ⟨w, payload⟩)

/-- The next state of an outcome, if there is one. -/
def next? (o : Host.Outcome State Fault Refusal) : Option State :=
  match o with
  | .next s => some s
  | .fault _ => none
  | .refused _ => none

/-- The `STATUS` word after one step. -/
def statusAfter (s : State) : Option (BitVec 32) := (next? (step s)).map State.statusWord

/-! ### WellFormed refuses each ill-formed term -/

theorem test_wellFormed_refuses_long_update : (Instr.update (List.replicate (2 ^ 24) 0)).wellFormed = false := by
  rw [Instr.wellFormed, List.length_replicate]
  decide

theorem test_wellFormed_refuses_short_md5_block : (Instr.md5Transform ⟨0, 0, 0, 0⟩ (zeros 63)).wellFormed = false := by decide

theorem test_wellFormed_refuses_long_sha256_block :
    (Instr.sha256Transform ⟨0, 0, 0, 0, 0, 0, 0, 0⟩ (zeros 65)).wellFormed = false := by decide

/-! ### Decoding, word by word (V41, R79, R82): `OP` in bits 3..0, `ALG` in 5..4, `RSV` in 7..6, `LEN` in 31..8 -/

theorem test_decode_init : [0x00000001, 0x00000011, 0x00000021, 0x00000031].map (fun w => decodeTransaction ⟨w, []⟩) =
    [.ok (.init 0), .ok (.init 1), .ok (.init 2), .ok (.init 3)] := by decide

theorem test_decode_update : decodeTransaction ⟨0b00000000000000000000001100000010, abc⟩ = .ok (.update abc) := by decide

theorem test_decode_longest_update_word : decodeWord 0xffffff02 = .ok (.update 16777215) := by decide

theorem test_decode_final : decodeTransaction ⟨0b00000000000000000000000000000011, []⟩ = .ok .final := by decide

theorem test_decode_lookup : [0x00000004, 0x00000014, 0x00000024, 0x00000034].map (fun w => decodeTransaction ⟨w, []⟩) =
    [.ok (.lookup 0), .ok (.lookup 1), .ok (.lookup 2), .ok (.lookup 3)] := by decide

theorem test_decode_md5_request : decodeUnit ⟨0b0, [1, 2, 3, 4], zeros 64⟩ = .ok (.md5Transform ⟨1, 2, 3, 4⟩ (zeros 64)) := by
  decide

theorem test_decode_sha256_request : decodeUnit ⟨0b1, [1, 2, 3, 4, 5, 6, 7, 8], zeros 64⟩ =
    .ok (.sha256Transform ⟨1, 2, 3, 4, 5, 6, 7, 8⟩ (zeros 64)) := by decide

theorem test_decode_illegal_words :
    ([0x00000000, 0x00000041, 0x00000081, 0x00000101, 0x00000012, 0x00000042, 0x00000013, 0x00000043, 0x00000103, 0x80000004,
      0x00000005, 0x0000000f].map (fun w => (decodeWord w).isOk)).any id = false := by decide

theorem test_decode_refuses_wrong_requests :
    [⟨0, [1, 2, 3, 4], zeros 63⟩, ⟨0, [1, 2, 3], zeros 64⟩, ⟨1, [1, 2, 3, 4], zeros 64⟩].map decodeUnit =
      List.replicate 3 (.error .unitFraming) := by decide

/-- Each row of the opcode table, with its lowest word and its bits. -/
theorem test_decodeTableWord_rows :
    [(32, 0x1), (32, 0x2), (32, 0x3), (32, 0x4)].map (fun r => decodeTableWord r.1 r.2) =
      [some (.init 0), some (.update []), some .final, some (.lookup 0)] ∧
    decodeTableWord 8 0 = some (.md5Transform ⟨0, 0, 0, 0⟩ (zeros 64)) ∧
    decodeTableWord 8 1 = some (.sha256Transform ⟨0, 0, 0, 0, 0, 0, 0, 0⟩ (zeros 64)) := by decide

/-! ### The functions and the rounds (V10 to V19) -/

theorem test_word_primitives : rotl32 0x80000001 7 = 0x000000c0 ∧ rotr32 0x00000001 2 = 0x40000000 ∧
    shr32 0x00000018 10 = 0 ∧ (0xffffffff : Word) + 1 = 0 := by decide

theorem test_md5_functions : md5F 0xefcdab89 0x98badcfe 0x10325476 = 0x98badcfe ∧
    md5G 0xefcdab89 0x98badcfe 0x10325476 = 0x88888888 ∧ md5H 0xefcdab89 0x98badcfe 0x10325476 = 0x67452301 ∧
    md5I 0xefcdab89 0x98badcfe 0x10325476 = 0x77777777 := by decide

theorem test_sha256_functions : shaBigSigma0 0x6a09e667 = 0xce20b47e ∧ shaBigSigma1 0x510e527f = 0x3587272b ∧
    shaSmallSigma0 0x61626380 = 0x940e90ef ∧ shaSmallSigma1 0x00000018 = 0x000f0000 ∧
    shaCh 0x510e527f 0x9b05688c 0x1f83d9ab = 0x1f85c98c ∧ shaMaj 0x6a09e667 0xbb67ae85 0x3c6ef372 = 0x3a6fe667 := by decide

/-- The padded "abc" block of each algorithm (V13, V16). -/
def abcBlock (alg : Tag) : List Byte := abc ++ [0x80] ++ zeros 52 ++ lenBytes alg 24

theorem test_md5_trace : md5Rounds 1 md5Initial (abcBlock 0) = ⟨0x10325476, 0xd6d117b4, 0xefcdab89, 0x98badcfe⟩ ∧
    md5Rounds 33 md5Initial (abcBlock 0) = ⟨0x9f47e4f8, 0xb3707ebf, 0x726342d3, 0xa62884aa⟩ := by decide +kernel

theorem test_sha256_schedule : [16, 17, 18, 47, 63].map (fun t => (shaSchedule (abcBlock 1)).getD t 0) =
    [0x61626380, 0x000f0000, 0x7da86405, 0x065c43da, 0x12b1edeb] := by decide +kernel

/-- V14. -/
theorem test_md5_transform_corner : (next? (exec (.md5Transform ⟨0, 0, 0, 0⟩ (zeros 64)) State.reset)).map State.unitReply =
    some (some [0xf7cd1c97, 0xa5483681, 0x2b68d832, 0xf90ca639]) := by decide +kernel

/-- V13. -/
theorem test_md5_transform_abc : (next? (exec (.md5Transform md5Initial (abcBlock 0)) State.reset)).map State.unitReply =
    some (some [0x98500190, 0xb04fd23c, 0x7d3f96d6, 0x727fe128]) := by decide +kernel

/-- V17. -/
theorem test_sha256_transform_corner :
    (next? (exec (.sha256Transform ⟨0xffffffff, 0xffffffff, 0xffffffff, 0xffffffff, 0xffffffff, 0xffffffff, 0xffffffff,
      0xffffffff⟩ (List.replicate 64 0xff)) State.reset)).map State.unitReply =
    some (some [0x0598127a, 0xaf11706e, 0x77401fff, 0xd730c549, 0x0b84c867, 0xa98c6ca3, 0xd7f3c0f9, 0x06a78b79]) := by
  decide +kernel

/-- V16. -/
theorem test_sha256_transform_abc :
    (next? (exec (.sha256Transform sha256Initial (abcBlock 1)) State.reset)).map State.unitReply =
    some (some [0xba7816bf, 0x8f01cfea, 0x414140de, 0x5dae2223, 0xb00361a3, 0x96177a9c, 0xb410ff61, 0xf20015ad]) := by
  decide +kernel

/-! ### One step of each command (V20 to V40), from reset or from a context -/

/-- V20, rows 1 to 3 and 6. -/
theorem test_init_status : [0x00000001, 0x00000011, 0x00000021, 0x00000101].map (fun w => statusAfter (command State.reset w [])) =
    [some 0x00000001, some 0x00000005, some 0x00000020, some 0x00000010] := by decide

/-- V20, rows 4 and 5: an unknown tag poisons a context, and INIT clears an error. -/
theorem test_init_over_context : statusAfter (command (context 1 abc) 0x00000021 []) = some 0x00000026 ∧
    statusAfter (command { State.reset with err := .seqErr } 0x00000001 []) = some 0x00000001 := by decide +kernel

/-- V22: "abc" absorbed. -/
theorem test_update_abc : (next? (exec (.update abc) (context 0 []))).map
    (fun t => (t.bitCount, t.fill, t.pending, t.h.md5, t.statusWord)) = some (24, 3, abc, md5Initial, 0x00000002) := by
  decide +kernel

/-- P2: five bytes behind sixty cross a block boundary. -/
theorem test_update_crosses_block : (next? (exec (.update (List.replicate 5 0x61)) (context 1 (List.replicate 60 0x61)))).map
    (fun t => (t.bitCount, t.pending, t.h)) = some (520, [0x61],
      ⟨0xdf5bb81c, 0xe81e0626, 0xfb45a894, 0x4fd40f31, 0xb25e6816, 0xd6d499c1, 0xab904929, 0x00635e66⟩) := by decide +kernel

/-- V31, n = 55, MD5: the length field still fits. -/
theorem test_final_55 : (next? (exec .final (context 0 (List.replicate 55 0x61)))).map
    (fun t => (t.digest, t.statusWord)) = some ([0xef, 0x17, 0x72, 0xb6, 0xdf, 0xf9, 0xa1, 0x22, 0x35, 0x85, 0x52, 0x95, 0x4a,
      0xd0, 0xdf, 0x65, 0, 0, 0, 0, 0, 0, 0, 0, 0, 0, 0, 0, 0, 0, 0, 0], 0x00000083) := by decide +kernel

/-- V31, n = 56, SHA-256: one more block is needed. -/
theorem test_final_56 : (next? (exec .final (context 1 (List.replicate 56 0x61)))).map
    (fun t => (t.digest, t.statusWord)) = some ([0xb3, 0x54, 0x39, 0xa4, 0xac, 0x6f, 0x09, 0x48, 0xb6, 0xd6, 0xf9, 0xe3, 0xc6,
      0xaf, 0x0f, 0x5f, 0x59, 0x0c, 0xe2, 0x0f, 0x1b, 0xde, 0x70, 0x90, 0xef, 0x79, 0x70, 0x68, 0x6e, 0xc6, 0x73, 0x8a],
      0x00000087) := by decide +kernel

/-- V40. -/
theorem test_lookup_rows : [0x00000004, 0x00000014, 0x00000024].map (fun w => (next? (step (command State.reset w []))).map
    (fun t => (t.desc, t.statusWord))) =
    [some (⟨0, 16, 88, [0x6d, 0x64, 0x35, 0, 0, 0, 0, 0]⟩, 0x00000100),
     some (⟨1, 32, 104, [0x73, 0x68, 0x61, 0x32, 0x35, 0x36, 0, 0]⟩, 0x00000100),
     some (⟨0, 0, 0, zeros 8⟩, 0)] := by decide

/-- LOOKUP while an error stands still answers (R240), and leaves the error. -/
theorem test_lookup_under_error : statusAfter (command { context 0 abc with err := .lenOvf } 0x00000004 []) =
    some 0x00000142 := by decide +kernel

/-! ### Errors (V25, V34, P3) -/

theorem test_errors_from_reset :
    [(0x00000003, []), (0x00000102, [0x78]), (0x00000013, []), (0x00000044, [])].map
      (fun p => statusAfter (command State.reset p.1 p.2)) =
    [some 0x00000030, some 0x00000030, some 0x00000010, some 0x00000010] := by decide

theorem test_length_overflow :
    [(0xfffffffffffffff8, [0x62]), (0xfffffffffffffff0, [0x62]), (0xfffffffffffffff8, [])].map
      (fun p => (next? (exec (.update p.2) { context 0 [] with bitCount := p.1 })).map (fun t => (t.bitCount, t.err))) =
    [some (0xfffffffffffffff8, .lenOvf), some (0xfffffffffffffff8, .none), some (0xfffffffffffffff8, .none)] := by
  decide +kernel

theorem test_final_twice : statusAfter (command { finished 0 [] with digest := zeros 32 } 0x00000003 []) = some 0x000000b3 := by
  decide +kernel

/-! ### The port and the host's side (R34, R203, R224, R270, R284) -/

theorem test_framing_refused : step (command State.reset 0x00000302 [0x61]) = .refused .payloadFraming := by rfl

theorem test_read_desc : (next? (step (atPort State.reset (.read 2)))).map State.readData = some (some (.desc Descriptor.zero)) := by
  decide

theorem test_hardware_reset : statusAfter (atPort { State.reset with err := .seqErr, descValid := true } .reset) = some 0 := by
  decide

/-- V42. -/
theorem test_names : [[0x6d, 0x64, 0x35], [0x73, 0x68, 0x61, 0x32, 0x35, 0x36], [0x4d, 0x44, 0x35],
    [0x53, 0x48, 0x41, 0x32, 0x35, 0x36], [0x73, 0x68, 0x61, 0x2d, 0x32, 0x35, 0x36], []].map (resolveName false) =
    [some 0, some 1, none, none, none, none] ∧ resolveName true [0x4d, 0x44, 0x35] = some 0 := by decide

theorem test_hash_line : assemble (.hash 0 abc) = [⟨0x00000001, []⟩, ⟨0x00000302, abc⟩, ⟨0x00000003, []⟩] := by decide

/-- The free values of an instance are drawn under its own number (log entry 20). -/
theorem test_free_values_are_read : (State.bufferByte { State.reset with byteDraws := 3 } 7) = Config.freeByte 0 3 7 ∧
    (startContext 0 State.reset).h.h4 = Config.freeWord 0 0 4 := ⟨rfl, rfl⟩

/-! ### Witnesses: for each statement with hypotheses, a state and operands that meet all of them, and each clause -/

/-- Words that decode, and words that select a row. -/
theorem test_witness_TableRowsAgreeWithDecoder : decodeWord 0x00000031 = .ok (.init 3) ∧
    0x00000031 &&& (Command.init 0).row.2 = (Command.init 0).row.1 ∧
    0xffffff02 &&& (Command.update 0).row.2 = (Command.update 0).row.1 := by decide

/-- The words at the edges of R76's five cases. -/
theorem test_witness_DecodeWordIsTotalFunctionOfFields :
    ((0x00000031 : BitVec 32).extractLsb' 0 4 = 1 ∧ (0x00000031 : BitVec 32).extractLsb' 6 2 = 0 ∧ (0x00000031 : BitVec 32).extractLsb' 8 24 = 0) ∧
    ((0xffffff02 : BitVec 32).extractLsb' 0 4 = 2 ∧ (0xffffff02 : BitVec 32).extractLsb' 4 2 = 0 ∧ (0xffffff02 : BitVec 32).extractLsb' 6 2 = 0) ∧
    ((0x00000003 : BitVec 32).extractLsb' 0 4 = 3 ∧ (0x00000034 : BitVec 32).extractLsb' 0 4 = 4) ∧
    (0x00000012 : BitVec 32).extractLsb' 0 4 = 2 ∧ (0x00000012 : BitVec 32).extractLsb' 4 2 ≠ 0 := by decide

theorem test_witness_DecodeOfEncode : (Instr.update (List.replicate 16777215 0)).wellFormed = true ∧
    (Instr.init 3).wellFormed = true ∧ (Instr.md5Transform md5Initial (zeros 64)).wellFormed = true := by
  refine ⟨?_, by decide, by decide⟩
  rw [Instr.wellFormed, List.length_replicate]
  decide

theorem test_witness_EncodeOfDecode : decode (.command ⟨0x00000302, abc⟩) = .ok (.update abc) ∧
    decode (.unit ⟨1, List.replicate 8 0, zeros 64⟩) = .ok (.sha256Transform ⟨0, 0, 0, 0, 0, 0, 0, 0⟩ (zeros 64)) := by decide

theorem test_witness_StepRunsDecodedInstruction :
    ((command State.reset 0x00000302 abc).unitReq = none ∧
      (command State.reset 0x00000302 abc).inbox = [.command ⟨0x00000302, abc⟩] ∧
      decodeTransaction ⟨0x00000302, abc⟩ = .ok (.update abc)) ∧
    decodeUnit ⟨0, [1, 2, 3, 4], zeros 64⟩ = .ok (.md5Transform ⟨1, 2, 3, 4⟩ (zeros 64)) ∧
    decodeTableWord 32 0x00000031 = some (.init 3) ∧
    decodeTableWord 8 1 = some (.sha256Transform ⟨0, 0, 0, 0, 0, 0, 0, 0⟩ (zeros 64)) := by decide

/-- One word of each kind R77 lists, at the edge of its range, waiting at the port. -/
theorem test_witness_IllegalWordRaisesIllegalCmd :
    (command State.reset 0 []).unitReq = none ∧ (command State.reset 0 []).inbox = [.command ⟨0, []⟩] ∧
    (0x00000000 : BitVec 32).extractLsb' 0 4 = (0 : BitVec 4) ∧ (5 : BitVec 4) ≤ (0x00000005 : BitVec 32).extractLsb' 0 4 ∧
    (5 : BitVec 4) ≤ (0x0000000f : BitVec 32).extractLsb' 0 4 ∧ (0x00000041 : BitVec 32).extractLsb' 6 2 ≠ (0 : BitVec 2) ∧
    (0x00000013 : BitVec 32).extractLsb' 4 2 ≠ (0 : BitVec 2) ∧ (0x80000004 : BitVec 32).extractLsb' 8 24 ≠ (0 : BitVec 24) := by
  decide

/-- One byte too few, one too many, and a byte behind an ill-formed word. -/
theorem test_witness_WrongPayloadLengthHasNoStep : decodeWord 0x00000302 = .ok (.update 3) ∧
    (abc.take 2).length ≠ (Command.update 3).payloadLength ∧ (abc ++ [0]).length ≠ (Command.update 3).payloadLength ∧
    (∃ why, decodeWord 0x00000012 = .error why) ∧ [(0x78 : Byte)] ≠ [] := ⟨by rfl, by decide, by decide, ⟨_, rfl⟩, by decide⟩

/-- The register numbers where the clauses meet: 0, 1, 2 and 3. -/
theorem test_witness_HostReadsReturnRegister :
    (∀ n, (atPort State.reset (.read n)).unitReq = none ∧ (atPort State.reset (.read n)).inbox = [.read n]) ∧
    step (atPort State.reset (.read 3)) = .refused (.noSuchRegister 3) ∧
    (next? (step (atPort State.reset (.read 1)))).map State.readData = some (some (.digest (zeros 32))) :=
  ⟨fun _ => ⟨rfl, rfl⟩, rfl, by decide⟩

theorem test_witness_IdleStepKeepsState : State.reset.unitReq = none ∧ State.reset.inbox = [] := by decide

/-- The largest accesses the buffer has, and an empty one at its end. -/
theorem test_witness_BufferAccesses : 0 + 64 ≤ 64 ∧ 63 + 1 ≤ 64 ∧ 64 + (zeros 0).length ≤ 64 ∧ 0 + (zeros 64).length ≤ 64 := by
  decide

theorem test_witness_ResetValues :
    (atPort (context 0 abc) .reset).unitReq = none ∧ (atPort (context 0 abc) .reset).inbox = [.reset] ∧
    ∃ t, step (atPort (context 0 abc) .reset) = .next t := ⟨rfl, rfl, _, rfl⟩

/-- A reset event with another event behind it. -/
theorem test_witness_HardwareResetKeepsLaterEvents :
    (State.unitReq { context 0 abc with inbox := [.reset, .read 0] }) = none ∧
    (State.inbox { context 0 abc with inbox := [.reset, .read 0] }) = .reset :: [.read 0] := ⟨rfl, rfl⟩

/-- 2 is the first prime and 311 the sixty-fourth. -/
theorem test_witness_Sha256ConstantsAreRootsOfPrimes : Nat.count Nat.Prime 2 = 0 ∧ Nat.count Nat.Prime 311 = 63 := by
  decide +kernel

theorem test_witness_InitStartsContext : (∃ t, exec (.init 0) (context 1 abc) = .next t) ∧
    ∃ t, exec (.init 1) { State.reset with err := .seqErr } = .next t := ⟨⟨_, rfl⟩, _, rfl⟩

/-- Both tags, an error-free state, and a run without a successful INIT behind the failed one. -/
theorem test_witness_InitUnknownTagRaisesAlgNotFound : [(2 : Tag), 3].all (fun a => a = 2 ∨ a = 3) = true ∧
    State.reset.err = .none ∧ (∃ t, exec (.init 2) (context 1 abc) = .next t ∧
      ∃ u, runInstrs [.update abc, .final, .init 3] t = .next u) ∧
    ∀ a, .init a ∈ [Instr.update abc, .final, .init 3] → a = 2 ∨ a = 3 :=
  ⟨by decide, rfl, ⟨_, rfl, _, rfl⟩, by simp⟩

theorem test_witness_InitTwiceIsInitOnce : ∃ t, exec (.init 1) State.reset = .next t := ⟨_, rfl⟩

theorem open_context (alg : Tag) (m : List Byte) : (context alg m).Open := .inr rfl

/-- An empty buffer and 63 bytes, 63 pending bytes and none, and the last bit count that still fits. -/
theorem test_witness_ShortUpdateAppends :
    ((context 0 []).err = .none ∧ (context 0 []).Open ∧ (context 0 []).bitCount.toNat + 8 * (zeros 63).length < 2 ^ 64 ∧
      (zeros 63).length < 64 - (context 0 []).fill) ∧
    ((context 1 (zeros 63)).fill = 63 ∧ ([] : List Byte).length < 64 - 63) ∧
    (State.bitCount { context 0 [] with bitCount := 0xfffffffffffffff0 }).toNat + 8 * [(0 : Byte)].length < 2 ^ 64 :=
  ⟨⟨rfl, open_context 0 [], by decide, by decide⟩, ⟨by rfl, by decide⟩, by decide⟩

/-- An empty buffer and 64 bytes, and 63 pending bytes and one. -/
theorem test_witness_LongUpdateTransforms :
    ((context 0 []).err = .none ∧ (context 0 []).Open ∧ (context 0 []).bitCount.toNat + 8 * (zeros 64).length < 2 ^ 64 ∧
      (context 0 []).ctxAlg = 0 ∧ 64 - (context 0 []).fill ≤ (zeros 64).length) ∧
    ((context 1 (zeros 63)).ctxAlg = 1 ∧ (context 1 (zeros 63)).fill = 63 ∧ 64 - 63 ≤ [(0 : Byte)].length) :=
  ⟨⟨rfl, open_context 0 [], by decide, rfl, by decide⟩, rfl, by rfl, by decide⟩

/-- V21's row f = 63, LEN = 129: three transforms, fill 0. -/
theorem test_witness_UpdateTransformCount : (context 1 (zeros 63)).err = .none ∧ (context 1 (zeros 63)).Open ∧
    (context 1 (zeros 63)).bitCount.toNat + 8 * (zeros 129).length < 2 ^ 64 ∧ (context 1 (zeros 63)).ctxAlg = 1 ∧
    ((context 1 (zeros 63)).fill + (zeros 129).length) / 64 = 3 := ⟨rfl, open_context 1 _, by decide, rfl, by rfl⟩

theorem test_witness_EmptyUpdateOnlyEntersAccum :
    (startContext 0 State.reset).err = .none ∧ (startContext 0 State.reset).Open := ⟨rfl, .inl rfl⟩

/-- V25: one byte at `BITCOUNT = 2^64 - 8`. -/
theorem test_witness_LengthOverflowIsRefused :
    (State.err { context 0 [] with bitCount := 0xfffffffffffffff8 }) = .none ∧
    (State.Open { context 0 [] with bitCount := 0xfffffffffffffff8 }) ∧
    2 ^ 64 ≤ (State.bitCount { context 0 [] with bitCount := 0xfffffffffffffff8 }).toNat + 8 * [(0x62 : Byte)].length :=
  ⟨rfl, .inr rfl, by decide⟩

theorem test_witness_FinalEmitsDigest : (context 0 abc).err = .none ∧ (context 0 abc).Open ∧ (context 0 abc).ctxAlg = 0 ∧
    (context 1 abc).err = .none ∧ (context 1 abc).Open ∧ (context 1 abc).ctxAlg = 1 :=
  ⟨rfl, open_context 0 abc, rfl, rfl, open_context 1 abc, rfl⟩

/-- The fills where the two clauses meet, and the outermost ones: 0, 55, 56 and 63. -/
theorem test_witness_FinalTransformCount :
    [0, 55, 56, 63].map (fun n => (context 1 (zeros n)).fill) = [0, 55, 56, 63] ∧ (context 1 (zeros 55)).err = .none ∧
    (context 1 (zeros 55)).Open ∧ (context 1 (zeros 55)).ctxAlg = 1 := ⟨by rfl, rfl, open_context 1 _, rfl⟩

theorem test_witness_LookupDoesNotDisturbJob :
    (∃ t, exec (.lookup 3) (context 0 abc) = .next t) ∧ ∃ u, exec (.update abc) (context 0 abc) = .next u :=
  ⟨⟨_, rfl⟩, _, (exec_update_ok rfl (open_context 0 abc) (by decide)).trans
    (congrArg ofResult (appendPayload_short (by decide)))⟩

/-- A block, and the first and the last round index of each range of R112, R141, R142 and R143. -/
theorem test_witness_transforms : (abcBlock 1).length = 64 ∧ 0 < 64 ∧ 15 < 16 ∧ ¬ 16 < 16 ∧ 63 < 64 ∧ 16 ≤ 16 := by decide

theorem test_witness_TransformStepIsUnitRequest : (context 0 abc).ctxAlg = 0 ∧ (context 1 abc).ctxAlg = 1 ∧
    (abcBlock 0).length = 64 := by decide +kernel

theorem test_witness_PoisonedContextIgnoresUpdateAndFinal : (State.err { context 0 abc with err := .algNotFound }) ≠ .none := by
  decide

theorem test_witness_OutOfSequenceRaisesSeqErr : State.reset.err = .none ∧ State.reset.lc = .uninit ∧
    (finished 0 abc).err = .none ∧ (finished 0 abc).lc = .finalized := ⟨rfl, rfl, rfl, rfl⟩

theorem test_witness_ErrorsArePrecise : ∃ t, step (command State.reset 0x00000003 []) = .next t ∧
    t.err ≠ (command State.reset 0x00000003 []).err ∧ t.err ≠ .none := ⟨_, rfl, by decide, by decide⟩

/-- An error cleared by INIT and by reset. -/
theorem test_witness_OnlyInitAndResetClearError :
    (∃ t, step (command { State.reset with err := .seqErr } 0x00000011 []) = .next t ∧ t.err = .none) ∧
    ∃ t, step (atPort { State.reset with err := .seqErr } .reset) = .next t ∧ t.err = .none :=
  ⟨⟨_, rfl, rfl⟩, _, rfl, rfl⟩

theorem test_witness_NoDigestAfterError : (State.err { context 0 abc with err := .lenOvf }) ≠ .none ∧
    (∀ alg, .init alg ∈ [Instr.update abc, .final, .init 2] → alg = 2 ∨ alg = 3) ∧
    ∃ t, runInstrs [.update abc, .final, .init 2] { context 0 abc with err := .lenOvf } = .next t :=
  ⟨by decide, by simp, _, rfl⟩

/-- Each of the three transitions of `LC`. -/
theorem test_witness_LifecycleTransitions : (∃ t, exec (.init 1) State.reset = .next t ∧ t.lc ≠ .uninit) ∧
    (∃ t, exec (.update []) (startContext 1 State.reset) = .next t ∧ t.lc ≠ .fresh) ∧
    ∃ t, exec .final (context 1 abc) = .next t ∧ t.lc ≠ .accum :=
  ⟨⟨_, rfl, by decide⟩, ⟨_, rfl, by decide⟩, _, exec_final_ok rfl (open_context 1 abc) (.inr rfl), by decide⟩

theorem test_witness_RegisterWriters : (∃ t, exec .final (context 1 abc) = .next t) ∧
    (∃ t, exec (.lookup 0) (context 1 abc) = .next t) ∧ (∀ alg, Instr.final ≠ .init alg) ∧
    (∀ data, Instr.final ≠ .update data) ∧ ∀ st blk, Instr.final ≠ .md5Transform st blk :=
  ⟨⟨_, exec_final_ok rfl (open_context 1 abc) (.inr rfl)⟩, ⟨_, rfl⟩, by simp, by simp, by simp⟩

theorem test_witness_DigestKeptUntilInit : (finished 1 abc).lc = .finalized ∧ (∃ t, exec .final (finished 1 abc) = .next t) ∧
    (∃ t, exec (.init 3) (finished 1 abc) = .next t) ∧ ∀ alg, Instr.init 3 = .init alg → alg = 2 ∨ alg = 3 :=
  ⟨rfl, ⟨_, rfl⟩, ⟨_, rfl⟩, fun alg h => .inr (by simpa using h.symm)⟩

/-- The invariant of the registers, in a context that holds three bytes of a message. -/
theorem inv_context : (context 1 abc).Inv where
  bufferWf := by rfl
  wholeBytes := by rfl
  algLegal := .inr rfl
  noContextAlg := by simp [context]
  freshStart := by simp [context]
  digestFlag := by simp [context, State.reset]
  digestClear := fun _ => rfl
  digestWidth := rfl
  tailHeld := fun _ a ha => by
    have h : a < 3 := ha
    have h3 : a = 0 ∨ a = 1 ∨ a = 2 := by omega
    rcases h3 with rfl | rfl | rfl <;> rfl
  descRow := rfl

/-- The invariant is kept by a step that runs, does not fault, and is not refused. -/
theorem test_witness_StepKeepsRegisterInvariant : (context 1 abc).Inv ∧ ∃ t, step (context 1 abc) = .next t :=
  ⟨inv_context, _, rfl⟩

/-- The same with a command of a wrong payload, with a read of a missing register, and with a malformed request waiting. -/
theorem test_witness_NoStepFaults : State.Inv (command (context 1 abc) 0x00000302 []) ∧
    State.Quiescent (command (context 1 abc) 0x00000302 []) ∧
    step (command (context 1 abc) 0x00000302 []) = .refused .payloadFraming ∧
    step (atPort (context 1 abc) (.read 3)) = .refused (.noSuchRegister 3) ∧
    State.Inv { context 1 abc with unitReq := some ⟨0, [], []⟩ } ∧
    ¬ State.Quiescent { context 1 abc with unitReq := some ⟨0, [], []⟩ } ∧
    step { context 1 abc with unitReq := some ⟨0, [], []⟩ } = .refused .unitFraming :=
  ⟨{ inv_context with }, rfl, rfl, rfl, { inv_context with }, fun h => by simp [State.Quiescent] at h, rfl⟩

/-- A step that serves a request. -/
theorem test_witness_StepLeavesEngineQuiescent :
    ∃ t, step { State.reset with unitReq := some ⟨0, [1, 2, 3, 4], zeros 64⟩ } = .next t := ⟨_, rfl⟩

theorem test_witness_StatusWordFields : (context 1 abc).Inv := inv_context

theorem absorbed_context : (context 1 abc).Absorbed abc ∧ (context 0 abc).Absorbed abc := by
  refine ⟨⟨.inr ⟨rfl, rfl⟩, rfl, fun k hk => ?_⟩, .inl ⟨rfl, rfl⟩, rfl, fun k hk => ?_⟩ <;>
    exact byte?_setList_inside hk

/-- An open context with a message, and a finalized one with its digest. -/
theorem test_witness_StepKeepsMessageInvariant :
    ((context 1 abc).MessageInv ∧ ∃ t, step (command (context 1 abc) 0x00000014 []) = .next t) ∧ (finished 0 abc).MessageInv :=
  ⟨⟨⟨by simp [context], fun _ => ⟨abc, absorbed_context.1⟩, by simp [context]⟩, _, rfl⟩,
    ⟨by simp [finished], by simp [finished], fun _ => ⟨abc, rfl, rfl⟩⟩⟩

/-- A run from reset that ends in an open context, and what R164's message is along it. -/
theorem test_witness_OpenContextAbsorbedItsMessage : (State.reset.Open → State.reset.Absorbed []) ∧
    (∃ t, runInstrs [.init 1, .update abc, .lookup 0] State.reset = .next t ∧ t.Open) ∧
    messageAlong [.init 1, .update abc, .init 0, .update abc, .update []] State.reset [] = abc :=
  ⟨fun h => by simp [State.Open, State.reset] at h, ⟨_, rfl, .inr rfl⟩, by decide +kernel⟩

theorem test_witness_LengthFieldByteOrder : (context 0 abc).err = .none ∧ (context 0 abc).Open ∧ (context 0 abc).ctxAlg = 0 ∧
    (context 1 abc).ctxAlg = 1 ∧ (context 1 abc).Open := ⟨rfl, open_context 0 abc, rfl, rfl, open_context 1 abc⟩

theorem test_witness_ContextAbsorbsMessage : (context 1 abc).Absorbed abc ∧ (context 1 abc).err = .none ∧
    (context 1 abc).Open ∧ 8 * (abc.length + (zeros 100).length) < 2 ^ 64 :=
  ⟨absorbed_context.1, rfl, open_context 1 abc, by decide⟩

theorem test_witness_FinalGivesMessageDigest :
    ((context 1 abc).Absorbed abc ∧ (context 1 abc).err = .none ∧ (context 1 abc).Open ∧ (context 1 abc).ctxAlg = 1) ∧
    (context 0 abc).Absorbed abc ∧ (context 0 abc).err = .none ∧ (context 0 abc).Open ∧ (context 0 abc).ctxAlg = 0 :=
  ⟨⟨absorbed_context.1, rfl, open_context 1 abc, rfl⟩, absorbed_context.2, rfl, open_context 0 abc, rfl⟩

/-- Chunks of which one is empty. -/
theorem test_witness_DigestIndependentOfChunking : 8 * [[(0x61 : Byte)], [], [0x62, 0x63]].flatten.length < 2 ^ 64 ∧
    [[(0x61 : Byte)], [], [0x62, 0x63]].flatten = abc := by decide

/-- Two contexts that differ in an unused word of `H`. -/
theorem test_witness_AbsorbedStateDependsOnMessageOnly :
    (startContext 0 State.reset).Absorbed [] ∧ (startContext 0 (startContext 0 State.reset)).Absorbed [] ∧
    (startContext 0 State.reset).ctxAlg = (startContext 0 (startContext 0 State.reset)).ctxAlg :=
  ⟨absorbed_startContext _ (.inl rfl), absorbed_startContext _ (.inl rfl), rfl⟩

/-- A payload that fits one command. -/
theorem test_witness_AssembledLinesDecode : abc.length ≤ 16777215 ∧ updatePieces abc = [abc] := by decide

/-- Two instances, of which one moves. -/
theorem test_witness_InstancesAreIsolated : ∃ t, SystemState.stepEngine (SystemState.reset 2 []) 1 = .next t := ⟨_, rfl⟩

theorem test_witness_ScheduleOrderIrrelevant : [0, 1].Perm [1, 0] ∧
    ∃ t, SystemState.runSchedule [0, 1] ((SystemState.reset 2 []).issue 0 (.command ⟨0x00000011, []⟩)) = .next t :=
  ⟨.swap 1 0 [], _, rfl⟩

end Sys2Proof.Tests
end

section
/-! PROOFS. Byte packing (00_scope.md R12): the bits of a packed word and of its bytes, and from them that packing and
unpacking undo each other in either byte order. -/

namespace Sys2Proof.Machine

/-- Big-endian packing is little-endian packing of the reversed bytes. -/
theorem be32_eq_le32_reverse (b0 b1 b2 b3 : Byte) : be32 b0 b1 b2 b3 = le32 b3 b2 b1 b0 := by
  rw [be32, le32, BitVec.or_comm, BitVec.or_comm _ (b2.setWidth 32 <<< 8), BitVec.or_comm (b0.setWidth 32 <<< 24)]
  simp only [BitVec.or_assoc]

theorem be32bytes_eq_reverse (w : Word) : be32bytes w = (le32bytes w).reverse := rfl

theorem getLsbD_wordByte (w : Word) (k i : Nat) :
    (wordByte w k).getLsbD i = (decide (i < 8) && w.getLsbD (8 * k + i)) := by
  simp [wordByte]

theorem getLsbD_le32 (b0 b1 b2 b3 : Byte) {i : Nat} (hi : i < 32) :
    (le32 b0 b1 b2 b3).getLsbD i =
      if i < 8 then b0.getLsbD i else if i < 16 then b1.getLsbD (i - 8)
      else if i < 24 then b2.getLsbD (i - 16) else b3.getLsbD (i - 24) := by
  simp only [le32, BitVec.getLsbD_or, BitVec.getLsbD_shiftLeft, BitVec.getLsbD_setWidth, hi]
  split_ifs
  · simp [*, show i < 16 by omega, show i < 24 by omega]
  · simp (disch := omega) [*, BitVec.getLsbD_of_ge, show i - 8 < 32 by omega, show i < 24 by omega]
  · simp (disch := omega) [*, BitVec.getLsbD_of_ge, show i - 16 < 32 by omega]
  · simp (disch := omega) [*, BitVec.getLsbD_of_ge, show i - 24 < 32 by omega]

/-- R12: a word is packed from its own bytes. -/
@[simp] theorem le32_wordBytes (w : Word) : le32 (wordByte w 0) (wordByte w 1) (wordByte w 2) (wordByte w 3) = w := by
  apply BitVec.eq_of_getLsbD_eq
  intro i hi
  simp only [getLsbD_le32 _ _ _ _ hi, getLsbD_wordByte]
  split_ifs
  · simp [*]
  · simp [show i - 8 < 8 by omega, show 8 + (i - 8) = i by omega]
  · simp [show i - 16 < 8 by omega, show 16 + (i - 16) = i by omega]
  · simp [show i - 24 < 8 by omega, show 24 + (i - 24) = i by omega]

/-- R12: byte `k` of a packed word is the `k`-th byte packed. -/
theorem wordByte_le32 (b0 b1 b2 b3 : Byte) (k : Fin 4) : wordByte (le32 b0 b1 b2 b3) k = [b0, b1, b2, b3].get k := by
  apply BitVec.eq_of_getLsbD_eq
  intro i hi
  rw [getLsbD_wordByte, getLsbD_le32 _ _ _ _ (by omega)]
  fin_cases k
  · simp [hi]
  · simp [hi, show 8 + i < 16 by omega]
  · simp [hi, show ¬ 16 + i < 8 by omega, show 16 + i < 24 by omega]
  · simp [hi, show ¬ 24 + i < 8 by omega, show ¬ 24 + i < 16 by omega]

@[simp] theorem le32bytes_le32 (b0 b1 b2 b3 : Byte) : le32bytes (le32 b0 b1 b2 b3) = [b0, b1, b2, b3] := by
  have byte (k : Fin 4) := wordByte_le32 b0 b1 b2 b3 k
  simpa [le32bytes] using And.intro (byte 0) ⟨byte 1, byte 2, byte 3⟩

@[simp] theorem be32_wordBytes (w : Word) : be32 (wordByte w 3) (wordByte w 2) (wordByte w 1) (wordByte w 0) = w := by
  rw [be32_eq_le32_reverse, le32_wordBytes]

@[simp] theorem be32bytes_be32 (b0 b1 b2 b3 : Byte) : be32bytes (be32 b0 b1 b2 b3) = [b0, b1, b2, b3] := by
  rw [be32_eq_le32_reverse, be32bytes_eq_reverse, le32bytes_le32]
  rfl

/-- Settles O6: little-endian packing is undone bit by bit, and big-endian packing is the same on reversed bytes. -/
theorem bytePackingInverse : Obligations.BytePackingInverse :=
  ⟨le32_wordBytes, be32_wordBytes, le32bytes_le32, be32bytes_be32⟩

end Sys2Proof.Machine
end

section
/-! PROOFS. Steps: what a step answers for each thing that can be next, as equations (20 R56, 30 R70, 10 R34). -/

namespace Sys2Proof.Machine

variable {s : State}

/-- A waiting request is served before anything at the port. -/
theorem step_of_unitReq {r : UnitRequest} (h : s.unitReq = some r) :
    step s = runUnitRequest r { s with unitReq := none } := by
  simp only [step, nextMove, h]

theorem step_of_idle (hq : s.unitReq = none) (hi : s.inbox = []) : step s = .next s := by
  simp only [step, nextMove, hq, hi]

/-- With no request waiting, a step takes the oldest event of the host. -/
theorem step_of_event {e : PortEvent} {rest : List PortEvent} (hq : s.unitReq = none) (hi : s.inbox = e :: rest) :
    step s = runEvent e { s with inbox := rest } := by
  simp only [step, nextMove, hq, hi]

theorem runTransaction_of_decoded {t : Transaction} {i : Instr} (h : decodeTransaction t = .ok i) :
    runTransaction t s = exec i s := by
  simp only [runTransaction, h]

theorem runUnitRequest_of_decoded {r : UnitRequest} {i : Instr} (h : decodeUnit r = .ok i) :
    runUnitRequest r s = exec i s := by
  simp only [runUnitRequest, h]

/-- R284: a transaction is refused for the framing of its payload only. -/
theorem runTransaction_refused {t : Transaction} {r : Refusal} (h : runTransaction t s = .refused r) :
    r = .payloadFraming := by
  unfold runTransaction at h
  split at h
  · exact absurd h (exec_not_next.2 r)
  · simp at h
  · simpa using h.symm

theorem runUnitRequest_refused {q : UnitRequest} {r : Refusal} (h : runUnitRequest q s = .refused r) :
    r = .unitFraming := by
  unfold runUnitRequest at h
  split at h
  · exact absurd h (exec_not_next.2 r)
  · simpa using h.symm

theorem hostRead_of_register {n : Nat} {v : RegValue} (h : s.register? n = some v) :
    hostRead n s = .next { s with readData := some v } := by
  simp only [hostRead, h]

theorem hostRead_of_no_register {n : Nat} (h : s.register? n = none) : hostRead n s = .refused (.noSuchRegister n) := by
  simp only [hostRead, h]

/-- R34: the register numbers are 0, 1 and 2. -/
theorem register?_eq_none_iff {n : Nat} : s.register? n = none ↔ 3 ≤ n := by
  rcases n with _ | _ | _ | n <;> simp [State.register?]

/-- A host read is refused exactly for a number without a register. -/
theorem hostRead_refused {n : Nat} {r : Refusal} (h : hostRead n s = .refused r) : 3 ≤ n ∧ r = .noSuchRegister n := by
  cases hv : s.register? n with
  | none =>
    rw [hostRead_of_no_register hv] at h
    exact ⟨register?_eq_none_iff.mp hv, by simpa using h.symm⟩
  | some v =>
    rw [hostRead_of_register hv] at h
    simp at h

/-- A property of the registers that every instruction, every error and reset keep, and that does not look at the port or
at the interfaces, is kept by every step. -/
theorem step_keeps {P : State → Prop}
    (hport : ∀ (s : State) (inbox : List PortEvent) (readData : Option RegValue) (unitReq : Option UnitRequest),
      P s → P { s with inbox := inbox, readData := readData, unitReq := unitReq })
    (hexec : ∀ (i : Instr) (s t : State), P s → exec i s = .next t → P t)
    (hraise : ∀ (s : State) (code : ErrCode), P s → P (s.raise code))
    (hreset : ∀ s : State, P (hardwareReset s))
    {s t : State} (hs : P s) (h : step s = .next t) : P t := by
  rcases step_next h with ⟨-, i, -, -, hx⟩ | ⟨-, -, rfl⟩ | ⟨-, rest, i, -, -, -, hx⟩ | ⟨-, rest, -, -, -, -, rfl⟩ |
    ⟨-, rest, v, -, -, -, rfl⟩ | ⟨rest, -, -, rfl⟩
  · exact hexec i _ t (hport s s.inbox s.readData none hs) hx
  · exact hs
  · exact hexec i _ t (hport s rest s.readData s.unitReq hs) hx
  · exact hraise _ _ (hport s rest s.readData s.unitReq hs)
  · exact hport s rest (some v) s.unitReq hs
  · exact hreset _

end Sys2Proof.Machine
end

section
/-! PROOFS. Instructions: what each instruction writes (10 R27), and when one acts on the context (10 R25). -/

namespace Sys2Proof.Machine

variable {i : Instr} {s t : State}

/-- The table of R27 by instruction: a next state differs from the state before in the registers named here only. -/
def Frame (s t : State) : Instr → Prop
  | .init _ => t = { s with h := t.h, wordDraws := t.wordDraws, ctxAlg := t.ctxAlg, bitCount := t.bitCount, lc := t.lc,
                            err := t.err, digestValid := t.digestValid, digest := t.digest }
  | .update _ => t = { s with h := t.h, buffer := t.buffer, byteDraws := t.byteDraws, bitCount := t.bitCount, lc := t.lc,
                              err := t.err }
  | .final => t = { s with h := t.h, buffer := t.buffer, byteDraws := t.byteDraws, lc := t.lc, err := t.err,
                           digestValid := t.digestValid, digest := t.digest }
  | .lookup _ => t = { s with desc := t.desc, descValid := t.descValid }
  | .md5Transform _ _ => t = { s with unitReply := t.unitReply }
  | .sha256Transform _ _ => t = { s with unitReply := t.unitReply }

theorem exec_frame (h : exec i s = .next t) : Frame s t i := by
  rcases exec_next h with ⟨a, rfl, -, rfl⟩ | ⟨a, rfl, -, rfl⟩ | ⟨⟨d, rfl⟩ | rfl, -, rfl⟩ | ⟨⟨d, rfl⟩ | rfl, -, -, rfl⟩ |
    ⟨d, rfl, -, -, -, rfl⟩ | ⟨d, rfl, -, -, -, -, rfl⟩ | ⟨d, rfl, -, -, -, -, -, rfl⟩ | ⟨rfl, -, -, -, rfl⟩ |
    ⟨a, rfl, d, f, -, rfl⟩ | ⟨w, ⟨st, blk, rfl⟩ | ⟨st, blk, rfl⟩, rfl⟩ <;> rfl

/-- An instruction acts on the context as a successful INIT, UPDATE or FINAL, or leaves every register of the context
unchanged. -/
theorem exec_context (h : exec i s = .next t) :
    (∃ alg, i = .init alg ∧ (alg = 0 ∨ alg = 1) ∧ t = startContext alg s) ∨
    (∃ data, i = .update data ∧ s.Open ∧ s.bitCount.toNat + 8 * data.length < 2 ^ 64 ∧
      (data.length < 64 - s.fill ∧ t = shortUpdate data s ∨ t = longUpdate data s)) ∨
    (i = .final ∧ s.Open ∧ (s.ctxAlg = 0 ∨ s.ctxAlg = 1) ∧ t = finalState s) ∨
    t = { s with err := t.err, desc := t.desc, descValid := t.descValid, unitReply := t.unitReply } := by
  rcases exec_next h with ⟨a, rfl, ha, rfl⟩ | ⟨-, -, -, rfl⟩ | ⟨-, -, rfl⟩ | ⟨-, -, -, rfl⟩ | ⟨-, -, -, -, -, rfl⟩ |
    ⟨d, rfl, -, ho, hb, hd, rfl⟩ | ⟨d, rfl, -, ho, hb, -, -, rfl⟩ | ⟨rfl, -, ho, ha, rfl⟩ | ⟨-, -, d, f, -, rfl⟩ | ⟨w, -, rfl⟩
  · exact .inl ⟨a, rfl, ha, rfl⟩
  · exact .inr (.inr (.inr rfl))
  · exact .inr (.inr (.inr rfl))
  · exact .inr (.inr (.inr rfl))
  · exact .inr (.inr (.inr rfl))
  · exact .inr (.inl ⟨d, rfl, ho, hb, .inl ⟨hd, rfl⟩⟩)
  · exact .inr (.inl ⟨d, rfl, ho, hb, .inr rfl⟩)
  · exact .inr (.inr (.inl ⟨rfl, ho, ha, rfl⟩))
  · exact .inr (.inr (.inr rfl))
  · exact .inr (.inr (.inr rfl))

theorem State.Open.not_finalized (h : s.Open) : s.lc ≠ .finalized := fun hf => not_open_iff.mpr (.inr hf) h

end Sys2Proof.Machine
end

section
/-! PROOFS. The invariant of the registers (10 R36 (a) to (d), R24, R29, R32, R33): it holds at reset, and each operation
keeps it. -/

namespace Sys2Proof.Machine

variable {i : Instr} {s t : State}

/-- The fill after `n` further bytes that do not overflow `BITCOUNT`. -/
theorem fill_of_bitCount_add {n : Nat} (h : s.bitCount.toNat + 8 * n < 2 ^ 64)
    (ht : t.bitCount = s.bitCount + BitVec.ofNat 64 (8 * n)) : t.fill = (s.fill + n) % 64 := by
  rw [State.fill, State.fill, ht, toNat_bitCount_add h]
  omega

theorem wholeBytes_of_bitCount_add {n : Nat} (h : s.bitCount.toNat + 8 * n < 2 ^ 64) (hs : s.bitCount.toNat % 8 = 0) :
    (s.bitCount + BitVec.ofNat 64 (8 * n)).toNat % 8 = 0 := by
  rw [toNat_bitCount_add h]
  omega

/-- Bytes held from address 0 have specified values. -/
theorem isSome_of_holds {v : List Byte} (h : s.holds 0 v) {a : Nat} (ha : a < v.length) : (s.buffer.byte? a).isSome = true := by
  have hb := h a ha
  rw [Nat.zero_add] at hb
  rw [hb]
  rfl

/-- While the context is open no digest is valid. -/
theorem State.Inv.digestValid_of_open (h : s.Inv) (ho : s.Open) : s.digestValid = false := by
  rw [Bool.eq_false_iff]
  exact fun hv => ho.not_finalized (h.digestFlag.mp hv)

theorem State.Inv.reset : State.reset.Inv where
  bufferWf := wf_nil
  wholeBytes := rfl
  algLegal := .inl rfl
  noContextAlg := fun _ => rfl
  freshStart := nofun
  digestFlag := ⟨nofun, nofun⟩
  digestClear := fun _ => rfl
  digestWidth := rfl
  tailHeld := fun ho => absurd ho (not_open_iff.mpr (.inl rfl))
  descRow := rfl

/-- The invariant does not look at the port, the interfaces. -/
theorem State.Inv.withPort (h : s.Inv) (inbox : List PortEvent) (readData : Option RegValue) (unitReq : Option UnitRequest) :
    State.Inv { s with inbox := inbox, readData := readData, unitReq := unitReq } := { h with }

theorem State.Inv.hardwareReset (s : State) : (hardwareReset s).Inv := { State.Inv.reset with }

theorem State.Inv.raise (h : s.Inv) (code : ErrCode) : (s.raise code).Inv := { h with }

theorem State.Inv.startContext (h : s.Inv) {alg : Tag} (ha : alg = 0 ∨ alg = 1) : (startContext alg s).Inv where
  bufferWf := h.bufferWf
  wholeBytes := rfl
  algLegal := ha
  noContextAlg := nofun
  freshStart := fun _ => ⟨rfl, by
    rcases ha with rfl | rfl
    · exact .inl ⟨rfl, md5_initialWords s.engine s.wordDraws⟩
    · exact .inr ⟨rfl, sha256_initialWords s.engine s.wordDraws⟩⟩
  digestFlag := ⟨nofun, nofun⟩
  digestClear := fun _ => rfl
  digestWidth := length_zeros _
  tailHeld := fun _ _ hlt => by simp [State.fill] at hlt
  descRow := h.descRow

/-- An UPDATE that leaves a canonical buffer with every byte below the new fill specified keeps the invariant. -/
theorem State.Inv.append (h : s.Inv) (ho : s.Open) {data : List Byte} (hb : s.bitCount.toNat + 8 * data.length < 2 ^ 64)
    {words : StateWords} {buffer : Memory} {draws : Nat} (hwf : buffer.wf = true)
    (htail : ∀ a, a < (s.fill + data.length) % 64 → (buffer.byte? a).isSome = true) :
    State.Inv { s with h := words, buffer := buffer, byteDraws := draws, lc := .accum,
                       bitCount := s.bitCount + BitVec.ofNat 64 (8 * data.length) } where
  bufferWf := hwf
  wholeBytes := wholeBytes_of_bitCount_add hb h.wholeBytes
  algLegal := h.algLegal
  noContextAlg := nofun
  freshStart := nofun
  digestFlag := ⟨fun hv => absurd hv (by simp [h.digestValid_of_open ho]), nofun⟩
  digestClear := h.digestClear
  digestWidth := h.digestWidth
  tailHeld := fun _ a ha => htail a (by rwa [fill_of_bitCount_add hb rfl] at ha)
  descRow := h.descRow

theorem State.Inv.shortUpdate (h : s.Inv) (ho : s.Open) {data : List Byte}
    (hb : s.bitCount.toNat + 8 * data.length < 2 ^ 64) (hd : data.length < 64 - s.fill) : (shortUpdate data s).Inv := by
  refine h.append ho hb (wf_setList h.bufferWf (by omega)) (fun a ha => ?_)
  rw [Nat.mod_eq_of_lt (by omega)] at ha
  rw [withBuffer_buffer]
  by_cases hlt : a < s.fill
  · rw [byte?_setList_outside (.inl hlt)]
    exact h.tailHeld ho a hlt
  · rw [byte?_setList, dif_pos (by omega)]
    rfl

theorem State.Inv.longUpdate (h : s.Inv) (ho : s.Open) {data : List Byte}
    (hb : s.bitCount.toNat + 8 * data.length < 2 ^ 64) : (longUpdate data s).Inv := by
  have hlen : (tailBytes (s.pending ++ data)).length = (s.fill + data.length) % 64 := by simp
  refine h.append ho hb (wf_setList wf_nil (by omega)) (fun a ha => ?_)
  exact isSome_of_holds (holds_setList s [] 0 _) (hlen.symm ▸ ha)

theorem length_serialBytes_le (alg : Tag) (w : StateWords) : (serialBytes alg w).length ≤ Config.digestBytes := by
  unfold serialBytes
  split <;> simp [Config.digestBytes]

theorem State.Inv.finalState (h : s.Inv) : (finalState s).Inv where
  bufferWf := wf_nil
  wholeBytes := h.wholeBytes
  algLegal := h.algLegal
  noContextAlg := nofun
  freshStart := nofun
  digestFlag := ⟨fun _ => rfl, fun _ => rfl⟩
  digestClear := nofun
  digestWidth := by
    have hle := length_serialBytes_le s.ctxAlg (finalWords s)
    simp only [Machine.finalState, List.length_append, length_zeros]
    omega
  tailHeld := fun ho => absurd rfl ho.not_finalized
  descRow := h.descRow

/-- R33: LOOKUP writes a row of the table or zeros, and no other instruction writes `DESC`. -/
theorem exec_keeps_descRow (hs : s.Inv) (h : exec i s = .next t) :
    if t.descValid then ∃ alg, descriptorOf alg = some t.desc else t.desc = Descriptor.zero := by
  rcases exec_next h with ⟨-, -, -, rfl⟩ | ⟨-, -, -, rfl⟩ | ⟨-, -, rfl⟩ | ⟨-, -, -, rfl⟩ | ⟨-, -, -, -, -, rfl⟩ |
    ⟨-, -, -, -, -, -, rfl⟩ | ⟨-, -, -, -, -, -, -, rfl⟩ | ⟨-, -, -, -, rfl⟩ | ⟨alg, -, d, found, hrow, rfl⟩ | ⟨-, -, rfl⟩
  case inr.inr.inr.inr.inr.inr.inr.inr.inl =>
    cases found with
    | true => exact ⟨alg, hrow⟩
    | false => exact hrow
  all_goals exact hs.descRow

theorem exec_keeps_inv (hs : s.Inv) (h : exec i s = .next t) : t.Inv := by
  have hrow := exec_keeps_descRow hs h
  rcases exec_context h with ⟨alg, -, ha, rfl⟩ | ⟨data, -, ho, hb, ⟨hd, rfl⟩ | rfl⟩ | ⟨-, -, -, rfl⟩ | hsame
  · exact hs.startContext ha
  · exact hs.shortUpdate ho hb hd
  · exact hs.longUpdate ho hb
  · exact hs.finalState
  · rw [hsame]
    exact { hs with descRow := hrow }

/-- Settles O42: each operation keeps the invariant, and the port and the interfaces are no part of it. -/
theorem stepKeepsRegisterInvariant : Obligations.StepKeepsRegisterInvariant := fun _ _ =>
  step_keeps (P := State.Inv) (fun _ inbox readData unitReq h => h.withPort inbox readData unitReq)
    (fun _ _ _ => exec_keeps_inv) (fun _ code h => h.raise code) State.Inv.hardwareReset

end Sys2Proof.Machine
end

section
/-! PROOFS. The invariant that some message accounts for the context (10 R36 (e), (f), 43 R196): it holds at reset, and each
operation keeps it. -/

namespace Sys2Proof.Machine

variable {i : Instr} {s t : State} {m : List Byte}

/-- FINAL pads an absorbed message as R196 pads it. -/
theorem absorbed_padBytes (h : s.Absorbed m) : padBytes s.ctxAlg s.fill s.bitCount = pad s.ctxAlg m.length := by
  have hb : s.bitCount = BitVec.ofNat 64 (8 * m.length) := by
    rw [← h.2.1, BitVec.ofNat_toNat, BitVec.setWidth_eq]
  rw [absorbed_fill h, padBytes_mod, hb, pad]

/-- FINAL serialises the digest of an absorbed message (R196). -/
theorem absorbed_serialBytes (h : s.Absorbed m) : serialBytes s.ctxAlg (finalWords s) = digestOf s.ctxAlg m := by
  obtain ⟨hmd5, hsha⟩ := absorbed_chain h (pad s.ctxAlg m.length)
  rw [finalWords, absorbed_padBytes h]
  rcases absorbed_alg h with ha | ha
  · rw [serialBytes, digestOf, if_pos ha, if_pos ha, hmd5 ha, ha]
    rfl
  · have h0 : s.ctxAlg ≠ 0 := by simp [ha]
    rw [serialBytes, digestOf, if_neg h0, if_neg h0, hsha ha, ha]
    rfl

/-- R196: FINAL of a context that has absorbed `m` fills `DIGEST` with the digest of `m`. -/
theorem finalState_digest (h : s.Absorbed m) : (finalState s).digest = digestRegister s.ctxAlg m := by
  show serialBytes _ _ ++ zeros (Config.digestBytes - (serialBytes _ _).length) = _
  rw [absorbed_serialBytes h, digestRegister]

/-- An open context has absorbed some message. -/
theorem State.MessageInv.absorbed (h : s.MessageInv) (ho : s.Open) : ∃ m, s.Absorbed m :=
  ho.elim (fun hf => ⟨[], h.fresh hf⟩) h.accum

theorem State.MessageInv.of_uninit (h : s.lc = .uninit) : s.MessageInv where
  fresh := by simp [h]
  accum := by simp [h]
  finalized := by simp [h]

theorem State.MessageInv.withPort (h : s.MessageInv) (inbox : List PortEvent) (readData : Option RegValue)
    (unitReq : Option UnitRequest) :
    State.MessageInv { s with inbox := inbox, readData := readData, unitReq := unitReq } := { h with }

theorem State.MessageInv.raise (h : s.MessageInv) (code : ErrCode) : (s.raise code).MessageInv := { h with }

theorem State.MessageInv.startContext (s : State) {alg : Tag} (ha : alg = 0 ∨ alg = 1) : (startContext alg s).MessageInv where
  fresh := fun _ => absorbed_startContext s ha
  accum := nofun
  finalized := nofun

theorem State.MessageInv.of_accum (hlc : s.lc = .accum) (h : s.Absorbed m) : s.MessageInv where
  fresh := by simp [hlc]
  accum := fun _ => ⟨m, h⟩
  finalized := by simp [hlc]

theorem State.MessageInv.finalState (h : s.Absorbed m) : (finalState s).MessageInv where
  fresh := nofun
  accum := nofun
  finalized := fun _ => ⟨m, h.2.1, finalState_digest h⟩

theorem exec_keeps_messageInv (hs : s.MessageInv) (h : exec i s = .next t) : t.MessageInv := by
  rcases exec_context h with ⟨alg, -, ha, rfl⟩ | ⟨data, -, ho, hb, hupd⟩ | ⟨-, ho, -, rfl⟩ | hsame
  · exact .startContext s ha
  · obtain ⟨m, hm⟩ := hs.absorbed ho
    obtain ⟨hshort, hlong⟩ := absorbed_update hm hb
    rcases hupd with ⟨hd, rfl⟩ | rfl
    · exact .of_accum rfl (hshort hd)
    · exact .of_accum rfl hlong
  · obtain ⟨m, hm⟩ := hs.absorbed ho
    exact .finalState hm
  · rw [hsame]
    exact { hs with }

/-- Settles O43: INIT absorbs the empty message, UPDATE appends to what is absorbed, and FINAL shows its digest. -/
theorem stepKeepsMessageInvariant : Obligations.StepKeepsMessageInvariant := fun _ _ =>
  step_keeps (P := State.MessageInv) (fun _ inbox readData unitReq h => h.withPort inbox readData unitReq)
    (fun _ _ _ => exec_keeps_messageInv) (fun _ code h => h.raise code) (fun _ => .of_uninit rfl)

/-- Settles O41: both invariants at reset, where no request waits. -/
theorem invariantsHoldAtReset : Obligations.InvariantsHoldAtReset :=
  ⟨State.Inv.reset, .of_uninit rfl, rfl⟩

end Sys2Proof.Machine
end

section
/-! PROOFS. Which instruction changes `LC`, the registers and `DIGEST` (10 R25, R27, R32), and LOOKUP (44 R222). -/

namespace Sys2Proof.Machine

variable {i : Instr} {s t : State}

/-- Settles O38: an instruction that is no successful INIT, UPDATE or FINAL leaves `LC` alone. -/
theorem lifecycleTransitions : Obligations.LifecycleTransitions := by
  intro i s t h hne
  rcases exec_context h with ⟨alg, rfl, ha, rfl⟩ | ⟨data, rfl, ho, -, ⟨-, rfl⟩ | rfl⟩ | ⟨rfl, ho, -, rfl⟩ | hsame
  · exact .inl ⟨alg, rfl, ha, rfl⟩
  · exact .inr (.inl ⟨data, rfl, ho, rfl⟩)
  · exact .inr (.inl ⟨data, rfl, ho, rfl⟩)
  · exact .inr (.inr ⟨rfl, ho, rfl⟩)
  · exact absurd (congrArg State.lc hsame) hne

/-- Settles O39: every clause is read off the frame of each instruction. -/
theorem registerWriters : Obligations.RegisterWriters := by
  intro i s t h
  have hf := exec_frame h
  cases i <;> (rw [hf]; simp [State.bufferByte])

/-- Settles O40: a finalized context takes no UPDATE and no FINAL, and only a successful INIT starts a new one. -/
theorem digestKeptUntilInit : Obligations.DigestKeptUntilInit := by
  intro i s t hlc h hinit
  rcases exec_context h with ⟨alg, rfl, ha, -⟩ | ⟨-, -, ho, -⟩ | ⟨-, ho, -⟩ | hsame
  · rcases hinit alg rfl with rfl | rfl <;> simp at ha
  · exact absurd hlc ho.not_finalized
  · exact absurd hlc ho.not_finalized
  · rw [hsame]
    exact ⟨rfl, rfl, hlc⟩

theorem exec_lookup_of_row {alg : Tag} {d : Descriptor} (h : descriptorOf alg = some d) :
    exec (.lookup alg) s = .next (s.setDesc d true) := by
  simp only [exec, execLookup, h]

theorem exec_lookup_of_no_row {alg : Tag} (h : descriptorOf alg = none) :
    exec (.lookup alg) s = .next (s.setDesc Descriptor.zero false) := by
  simp only [exec, execLookup, h]

/-- Settles O27: the two rows of R220's table, and none for tags 2 and 3. -/
theorem lookupWritesDescriptor : Obligations.LookupWritesDescriptor := fun _ =>
  ⟨exec_lookup_of_row rfl, exec_lookup_of_row rfl, exec_lookup_of_no_row rfl, exec_lookup_of_no_row rfl⟩

end Sys2Proof.Machine
end

section
/-! PROOFS. The `STATUS` word (10 R29, R31): its bits, its fields and their legal values. -/

namespace Sys2Proof.Machine

variable {s : State}

/-- R29, bit by bit. -/
theorem getLsbD_statusWord (s : State) {i : Nat} (hi : i < 32) :
    s.statusWord.getLsbD i =
      if i < 2 then s.lc.code.getLsbD i else if i < 4 then BitVec.getLsbD s.statusAlg (i - 2)
      else if i < 7 then s.err.code.getLsbD (i - 4)
      else if i < 8 then s.digestValid else if i < 9 then s.descValid else false := by
  interval_cases i <;> simp [State.statusWord, BitVec.getLsbD_of_ge]

/-- A field of `STATUS` that agrees with a value bit by bit. -/
theorem statusWord_field {start n : Nat} {v : BitVec n}
    (h : ∀ k, k < n → s.statusWord.getLsbD (start + k) = v.getLsbD k) : s.statusWord.extractLsb' start n = v := by
  apply BitVec.eq_of_getLsbD_eq
  intro k hk
  rw [BitVec.getLsbD_extractLsb', h k hk]
  simp [hk]

theorem statusWord_lc : s.statusWord.extractLsb' 0 2 = s.lc.code := statusWord_field fun k hk => by
  rw [getLsbD_statusWord s (by omega), if_pos (by omega), Nat.zero_add]

theorem statusWord_alg : s.statusWord.extractLsb' 2 2 = s.statusAlg := statusWord_field fun k hk => by
  rw [getLsbD_statusWord s (by omega), if_neg (by omega), if_pos (by omega), Nat.add_sub_cancel_left]

theorem statusWord_err : s.statusWord.extractLsb' 4 3 = s.err.code := statusWord_field fun k hk => by
  rw [getLsbD_statusWord s (by omega), if_neg (by omega), if_neg (by omega), if_pos (by omega), Nat.add_sub_cancel_left]

theorem statusWord_digestValid : s.statusWord.extractLsb' 7 1 = BitVec.ofBool s.digestValid :=
  statusWord_field fun k hk => by
    obtain rfl : k = 0 := by omega
    rw [getLsbD_statusWord s (by omega)]
    simp

theorem statusWord_descValid : s.statusWord.extractLsb' 8 1 = BitVec.ofBool s.descValid :=
  statusWord_field fun k hk => by
    obtain rfl : k = 0 := by omega
    rw [getLsbD_statusWord s (by omega)]
    simp

theorem statusWord_rest : s.statusWord.extractLsb' 9 23 = 0 := statusWord_field fun k hk => by
  rw [getLsbD_statusWord s (by omega), if_neg (by omega), if_neg (by omega), if_neg (by omega), if_neg (by omega),
    if_neg (by omega)]
  exact BitVec.getLsbD_zero.symm

/-- R29: `STATUS.CTX_ALG` takes 0 or 1. -/
theorem State.Inv.statusAlg_le (h : s.Inv) : BitVec.toNat s.statusAlg ≤ 1 := by
  unfold State.statusAlg
  split
  · decide
  · rcases h.algLegal with ha | ha <;> simp [ha]

/-- R31: codes 5 to 7 are never produced. -/
theorem ErrCode.toNat_code_le (e : ErrCode) : e.code.toNat ≤ 4 := by
  cases e <;> decide

/-- Settles O13: each field of `STATUS`, the codes by evaluation, and the legal values from the invariant. -/
theorem statusWordFields : Obligations.StatusWordFields := by
  refine ⟨fun s => ⟨statusWord_lc, statusWord_alg, statusWord_err, statusWord_digestValid, statusWord_descValid,
    statusWord_rest⟩, rfl, rfl, fun s hs => ?_⟩
  rw [statusWord_alg, statusWord_err]
  exact ⟨hs.statusAlg_le, s.err.toNat_code_le⟩

theorem statusWord_eq_zero (hlc : s.lc = .uninit) (herr : s.err = .none) (hdigest : s.digestValid = false)
    (hdesc : s.descValid = false) : s.statusWord = 0 := by
  rw [State.statusWord, State.statusAlg, hlc, herr, hdigest, hdesc, if_pos rfl]
  rfl

end Sys2Proof.Machine
end

section
/-! PROOFS. What a step answers: no fault from the invariant (20 R50, 70 R284), the decoded instruction run, a register read
(10 R34), and reset (10 R37, 70 R270). -/

namespace Sys2Proof.Machine

variable {s : State}

/-- Settles O44: a fault needs an illegal tag, which the invariant rules out, and each refusal is one event's or a malformed
request's. -/
theorem noStepFaults : Obligations.NoStepFaults := by
  intro s hs
  refine ⟨fun f hf => (step_not_next.1 f hf).2 hs.algLegal, fun hq r hr => ?_, fun hq r hr => ?_⟩
  · cases hi : s.inbox with
    | nil =>
      rw [step_of_idle hq hi] at hr
      simp at hr
    | cons e rest =>
      rw [step_of_event hq hi] at hr
      cases e with
      | command tr => exact .inl ⟨tr, rest, rfl, runTransaction_refused hr⟩
      | read n => exact .inr ⟨n, rest, rfl, hostRead_refused hr⟩
      | reset => simp [runEvent] at hr
  · obtain ⟨q, hsome⟩ := Option.ne_none_iff_exists'.mp hq
    rw [step_of_unitReq hsome] at hr
    exact runUnitRequest_refused hr

theorem decode_of_decodeTableWord {nbits w : Nat} {i : Instr} (h : decodeTableWord nbits w = some i) :
    decode (encodedOfTable nbits w) = .ok i := by
  unfold decodeTableWord at h
  split at h
  · next j hj => rw [hj, Option.some.inj h]
  · simp at h

/-- An encoded instruction placed as the next thing to run is run, and nothing else is taken. -/
theorem step_withNext {e : Encoded} {i : Instr} (h : decode e = .ok i) :
    step (s.withNext e) = exec i { s with unitReq := none } := by
  cases e with
  | command t => exact (step_of_event (s := s.withNext (.command t)) rfl rfl).trans (runTransaction_of_decoded h)
  | unit r => exact (step_of_unitReq (s := s.withNext (.unit r)) rfl).trans (runUnitRequest_of_decoded h)

/-- Settles O7, by the equations of a step. -/
theorem stepRunsDecodedInstruction : Obligations.StepRunsDecodedInstruction :=
  ⟨fun _ _ _ _ hq hi hd => (step_of_event hq hi).trans (runTransaction_of_decoded hd),
    fun _ _ _ hq hd => (step_of_unitReq hq).trans (runUnitRequest_of_decoded hd),
    fun _ _ _ _ hd => step_withNext (decode_of_decodeTableWord hd)⟩

/-- Settles O10: the three registers of R34 and no fourth. -/
theorem hostReadsReturnRegister : Obligations.HostReadsReturnRegister := by
  intro s n rest hq hi
  rw [step_of_event hq hi, runEvent]
  refine ⟨?_, ?_, ?_, fun hn => hostRead_of_no_register (register?_eq_none_iff.mpr hn)⟩ <;>
    (rintro rfl; exact hostRead_of_register rfl)

theorem step_of_reset {rest : List PortEvent} (hq : s.unitReq = none) (hi : s.inbox = .reset :: rest) :
    step s = .next (hardwareReset { s with inbox := rest }) := step_of_event hq hi

/-- Settles O14: R37's values in the initial state and behind a reset event. -/
theorem resetValues : Obligations.ResetValues := by
  refine ⟨fun t ht => ?_, fun s rest hq hi => ⟨_, step_of_reset hq hi⟩⟩
  rcases ht with rfl | ⟨s, rest, hq, hi, hstep⟩
  · exact ⟨rfl, rfl, rfl, rfl, rfl, rfl, rfl, statusWord_eq_zero rfl rfl rfl rfl⟩
  · rw [step_of_reset hq hi] at hstep
    injection hstep with ht
    subst ht
    exact ⟨rfl, rfl, rfl, rfl, rfl, rfl, rfl, statusWord_eq_zero rfl rfl rfl rfl⟩

/-- Settles O15: the whole state behind a reset event. -/
theorem hardwareResetKeepsLaterEvents : Obligations.HardwareResetKeepsLaterEvents :=
  fun _ _ hq hi => ⟨_, step_of_reset hq hi, rfl⟩

end Sys2Proof.Machine
end

section
/-! PROOFS. The buffer's accesses (20 R50), and that no request waits after a step (20 R56, 30 R79). -/

namespace Sys2Proof.Machine

variable {i : Instr} {s t : State}

/-- `MemRead` inside 0..63 answers `n` bytes, each the one that reads at its address. -/
theorem memRead_reads {a n : Nat} (h : a + n ≤ 64) : ∃ v, s.memRead a n = .ok v ∧ v.length = n ∧ s.reads a v :=
  ⟨_, memRead_ok h, by simp, fun k hk => by simp⟩

/-- `MemWrite` inside 0..63 sets the bytes of the range, keeps those outside it, and changes the buffer alone. -/
theorem memWrite_holds {a : Nat} {v : List Byte} (h : a + v.length ≤ 64) :
    ∃ t, s.memWrite a v = .ok t ∧ t = { s with buffer := t.buffer } ∧ t.holds a v ∧
      ∀ x, x < a ∨ a + v.length ≤ x → t.bufferByte x = s.bufferByte x :=
  ⟨_, memWrite_ok h, rfl, holds_setList s _ a v, fun _ hx => bufferByte_setList_outside hx⟩

/-- R50: the one fault an instruction can meet is a tag without a transform, so none meets `outsideBuffer`. -/
theorem exec_ne_outsideBuffer (i : Instr) (s : State) (a : Nat) : exec i s ≠ .fault (.outsideBuffer a) := by
  intro h
  obtain ⟨hf, -⟩ := exec_not_next.1 _ h
  exact absurd hf nofun

/-- Settles O12: the two accesses inside 0..63, and the fault of an access outside, which no instruction meets. -/
theorem bufferAccesses : Obligations.BufferAccesses :=
  ⟨fun _ _ _ => memRead_reads, fun _ _ _ => memWrite_holds, exec_ne_outsideBuffer⟩

/-- No instruction issues or takes a request at the transform units. -/
theorem exec_unitReq (h : exec i s = .next t) : t.unitReq = s.unitReq := by
  have hf := exec_frame h
  cases i <;> rw [hf]

/-- Settles O45: a waiting request is taken by the step that serves it, and no event of the host issues one. -/
theorem stepLeavesEngineQuiescent : Obligations.StepLeavesEngineQuiescent := by
  intro s t h
  rcases step_next h with ⟨-, i, -, -, hx⟩ | ⟨hq, -, rfl⟩ | ⟨-, rest, i, hq, -, -, hx⟩ | ⟨-, -, -, hq, -, -, rfl⟩ |
    ⟨-, -, -, hq, -, -, rfl⟩ | ⟨-, -, -, rfl⟩
  · exact exec_unitReq hx
  · exact hq
  · exact (exec_unitReq hx).trans hq
  · exact hq
  · exact hq
  · rfl

end Sys2Proof.Machine
end

section
/-! PROOFS. Several engines side by side (60 R255, 42 R169): what a step of one is, that steps of two commute, and that the
order of a schedule has no effect. -/

namespace Sys2Proof.Machine

variable {sys u t : SystemState} {j k : Nat}

/-- A number with no engine moves nothing; an engine that steps replaces its own state and no other. -/
theorem stepEngine_eq_next_iff :
    sys.stepEngine k = .next u ↔
      (sys.engines[k]? = none ∧ u = sys) ∨
      ∃ e e', sys.engines[k]? = some e ∧ step e = .next e' ∧ u = { sys with engines := sys.engines.set k e' } := by
  cases hk : sys.engines[k]? with
  | none => simp [SystemState.stepEngine, hk, eq_comm]
  | some e => cases hs : step e <;> simp [SystemState.stepEngine, hk, hs, eq_comm]

/-- Another engine finds its own state as before. -/
theorem stepEngine_getElem?_ne (h : sys.stepEngine j = .next u) (hjk : j ≠ k) : u.engines[k]? = sys.engines[k]? := by
  rcases stepEngine_eq_next_iff.mp h with ⟨-, rfl⟩ | ⟨-, e', -, -, rfl⟩
  · rfl
  · exact List.getElem?_set_ne hjk

/-- R169: two engines that step one after the other reach the same states in the other order. -/
theorem stepEngine_comm (hj : sys.stepEngine j = .next u) (hk : u.stepEngine k = .next t) :
    ∃ v, sys.stepEngine k = .next v ∧ v.stepEngine j = .next t := by
  by_cases hjk : j = k
  · subst hjk
    exact ⟨u, hj, hk⟩
  have hsame := stepEngine_getElem?_ne hj hjk
  simp only [stepEngine_eq_next_iff] at hj hk ⊢
  rw [hsame] at hk
  rcases hj with ⟨hnone, rfl⟩ | ⟨d, d', hd, hstepd, rfl⟩ <;> rcases hk with ⟨hnone', rfl⟩ | ⟨e, e', he, hstepe, rfl⟩
  · exact ⟨_, .inl ⟨hnone', rfl⟩, .inl ⟨hnone, rfl⟩⟩
  · refine ⟨_, .inr ⟨e, e', he, hstepe, rfl⟩, .inl ⟨?_, rfl⟩⟩
    rwa [List.getElem?_set_ne (Ne.symm hjk)]
  · exact ⟨_, .inl ⟨hnone', rfl⟩, .inr ⟨d, d', hd, hstepd, rfl⟩⟩
  · refine ⟨_, .inr ⟨e, e', he, hstepe, rfl⟩, .inr ⟨d, d', ?_, hstepd, ?_⟩⟩
    · rwa [List.getElem?_set_ne (Ne.symm hjk)]
    · rw [List.set_comm _ _ hjk]

/-- A schedule completes when its first engine steps and the rest completes from there. -/
theorem runSchedule_cons_eq_next_iff {l : List Nat} :
    SystemState.runSchedule (k :: l) sys = .next t ↔
      ∃ u, sys.stepEngine k = .next u ∧ SystemState.runSchedule l u = .next t := by
  rw [SystemState.runSchedule]
  split <;> simp_all

/-- Settles O56: a permutation is a chain of swaps of neighbours, and neighbouring steps commute. -/
theorem scheduleOrderIrrelevant : Obligations.ScheduleOrderIrrelevant := by
  intro l l' sys t hp
  induction hp generalizing sys with
  | nil => exact id
  | cons k _ ih =>
    simp only [runSchedule_cons_eq_next_iff]
    rintro ⟨u, hk, hrest⟩
    exact ⟨u, hk, ih u hrest⟩
  | swap j k l =>
    simp only [runSchedule_cons_eq_next_iff]
    rintro ⟨u, hk, w, hj, hrest⟩
    obtain ⟨v, hj', hk'⟩ := stepEngine_comm hk hj
    exact ⟨v, hj', w, hk', hrest⟩
  | trans _ _ ih ih' => exact fun h => ih' sys (ih sys h)

end Sys2Proof.Machine
end

section
/-! PROOFS. The command word by its fields (30 R71, R75, R76): a word is its four fields, each command is decoded from the
fields R76 gives, and a row's match and mask select exactly the words that decode to the row's command. -/

namespace Sys2Proof.Machine

variable {v w : BitVec 32}

/-- R71: the four fields cover the word, so two words with the same fields are the same. -/
theorem eq_iff_fields : v = w ↔
    opField v = opField w ∧ algField v = algField w ∧ rsvField v = rsvField w ∧ lenField24 v = lenField24 w := by
  refine ⟨by rintro rfl; simp, fun ⟨hop, halg, hrsv, hlen⟩ => BitVec.eq_of_getLsbD_eq fun i hi => ?_⟩
  rcases lt_or_ge i 4 with h4 | h4
  · simpa [opField, h4] using congrArg (·.getLsbD i) hop
  rcases lt_or_ge i 6 with h6 | h6
  · simpa [algField, show i - 4 < 2 by omega, show 4 + (i - 4) = i by omega] using congrArg (·.getLsbD (i - 4)) halg
  rcases lt_or_ge i 8 with h8 | h8
  · simpa [rsvField, show i - 6 < 2 by omega, show 6 + (i - 6) = i by omega] using congrArg (·.getLsbD (i - 6)) hrsv
  · simpa [lenField24, show i - 8 < 24 by omega, show 8 + (i - 8) = i by omega] using congrArg (·.getLsbD (i - 8)) hlen

theorem eq_commandWord_iff {op : BitVec 4} {alg : Tag} {len : BitVec 24} :
    w = commandWord op alg len ↔ opField w = op ∧ algField w = alg ∧ rsvField w = 0 ∧ lenField24 w = len := by
  simp [eq_iff_fields]

/-- The words that decode to a command are that command's word alone. -/
theorem decodeWord_eq_ok_iff {c : Command} : decodeWord w = .ok c ↔ w = c.toWord :=
  ⟨eq_toWord_of_decodeWord, fun h => h ▸ decodeWord_toWord c⟩

theorem decodeWord_eq_init_iff {alg : Tag} : decodeWord w = .ok (.init alg) ↔
    opField w = 1 ∧ algField w = alg ∧ rsvField w = 0 ∧ lenField24 w = 0 :=
  decodeWord_eq_ok_iff.trans eq_commandWord_iff

theorem decodeWord_eq_update_iff {len : BitVec 24} : decodeWord w = .ok (.update len) ↔
    opField w = 2 ∧ algField w = 0 ∧ rsvField w = 0 ∧ lenField24 w = len :=
  decodeWord_eq_ok_iff.trans eq_commandWord_iff

theorem decodeWord_eq_final_iff : decodeWord w = .ok .final ↔
    opField w = 3 ∧ algField w = 0 ∧ rsvField w = 0 ∧ lenField24 w = 0 :=
  decodeWord_eq_ok_iff.trans eq_commandWord_iff

theorem decodeWord_eq_lookup_iff {alg : Tag} : decodeWord w = .ok (.lookup alg) ↔
    opField w = 4 ∧ algField w = alg ∧ rsvField w = 0 ∧ lenField24 w = 0 :=
  decodeWord_eq_ok_iff.trans eq_commandWord_iff

/-- R243: an ill-formed word alone raises ILLEGAL_CMD. -/
theorem runTransaction_of_illegal {why : Illegal} (h : decodeWord w = .error why) (s : State) :
    runTransaction ⟨w, []⟩ s = .next (s.raise .illegalCmd) := by
  simp [runTransaction, decodeTransaction, h]

/-- Settles O2: each of R76's four cases is the fields of one command, and a word that decodes is in one of them. -/
theorem decodeWordIsTotalFunctionOfFields : Obligations.DecodeWordIsTotalFunctionOfFields := by
  intro w op alg rsv len
  refine ⟨fun ⟨hop, hrsv, hlen⟩ => decodeWord_eq_init_iff.mpr ⟨hop, rfl, hrsv, hlen⟩,
    fun ⟨hop, halg, hrsv⟩ => decodeWord_eq_update_iff.mpr ⟨hop, halg, hrsv, rfl⟩,
    fun ⟨hop, halg, hrsv, hlen⟩ => decodeWord_eq_final_iff.mpr ⟨hop, halg, hrsv, hlen⟩,
    fun ⟨hop, hrsv, hlen⟩ => decodeWord_eq_lookup_iff.mpr ⟨hop, rfl, hrsv, hlen⟩,
    fun ⟨hinit, hupdate, hfinal, hlookup⟩ => ?_⟩
  cases hd : decodeWord w with
  | error why => exact ⟨⟨why, rfl⟩, runTransaction_of_illegal hd⟩
  | ok c =>
    cases c with
    | init _ =>
      obtain ⟨hop, -, hrsv, hlen⟩ := decodeWord_eq_init_iff.mp hd
      exact absurd ⟨hop, hrsv, hlen⟩ hinit
    | update _ =>
      obtain ⟨hop, halg, hrsv, -⟩ := decodeWord_eq_update_iff.mp hd
      exact absurd ⟨hop, halg, hrsv⟩ hupdate
    | final => exact absurd (decodeWord_eq_final_iff.mp hd) hfinal
    | lookup _ =>
      obtain ⟨hop, -, hrsv, hlen⟩ := decodeWord_eq_lookup_iff.mp hd
      exact absurd ⟨hop, hrsv, hlen⟩ hlookup

theorem exists_command_iff {P : Command → Prop} : (∃ c, P c) ↔
    (∃ alg, P (.init alg)) ∨ (∃ len, P (.update len)) ∨ P .final ∨ ∃ alg, P (.lookup alg) := by
  constructor
  · rintro ⟨_ | _ | _ | _, h⟩
    · exact .inl ⟨_, h⟩
    · exact .inr (.inl ⟨_, h⟩)
    · exact .inr (.inr (.inl h))
    · exact .inr (.inr (.inr ⟨_, h⟩))
  · rintro (⟨_, h⟩ | ⟨_, h⟩ | h | ⟨_, h⟩) <;> exact ⟨_, h⟩

/-- A word matches under a mask when each of its fields does. -/
theorem and_eq_iff_fields {m : BitVec 32} : w &&& m = v ↔
    opField w &&& opField m = opField v ∧ algField w &&& algField m = algField v ∧
      rsvField w &&& rsvField m = rsvField v ∧ lenField24 w &&& lenField24 m = lenField24 v := by
  simp only [eq_iff_fields, opField, algField, rsvField, lenField24, BitVec.extractLsb'_and]

/-- R75: the mask of INIT's and LOOKUP's rows fixes every field but `ALG`. -/
theorem and_mask_alg_free_iff {op : BitVec 4} : w &&& 0xFFFFFFCF = commandWord op 0 0 ↔
    opField w = op ∧ rsvField w = 0 ∧ lenField24 w = 0 := by
  rw [and_eq_iff_fields, show opField 0xFFFFFFCF = BitVec.allOnes 4 from rfl, show algField 0xFFFFFFCF = 0 from rfl,
    show rsvField 0xFFFFFFCF = BitVec.allOnes 2 from rfl, show lenField24 0xFFFFFFCF = BitVec.allOnes 24 from rfl]
  simp only [BitVec.and_allOnes]
  simp

/-- R75: the mask of UPDATE's row fixes every field but `LEN`. -/
theorem and_mask_len_free_iff {op : BitVec 4} : w &&& 0x000000FF = commandWord op 0 0 ↔
    opField w = op ∧ algField w = 0 ∧ rsvField w = 0 := by
  rw [and_eq_iff_fields, show opField 0x000000FF = BitVec.allOnes 4 from rfl,
    show algField 0x000000FF = BitVec.allOnes 2 from rfl, show rsvField 0x000000FF = BitVec.allOnes 2 from rfl,
    show lenField24 0x000000FF = 0 from rfl]
  simp only [BitVec.and_allOnes]
  simp

/-- R75: a word selects a command's row exactly when it decodes to a command of that row. -/
theorem selects_row_iff {c : Command} : w &&& c.row.2 = c.row.1 ↔ ∃ d, decodeWord w = .ok d ∧ d.row = c.row := by
  rw [exists_command_iff]
  cases c with
  | init _ =>
    have hmask : w &&& 0xFFFFFFCF = 0x00000001 ↔ _ := and_mask_alg_free_iff (op := 1)
    simpa [Command.row, decodeWord_eq_init_iff] using hmask
  | update _ =>
    have hmask : w &&& 0x000000FF = 0x00000002 ↔ _ := and_mask_len_free_iff (op := 2)
    simpa [Command.row, decodeWord_eq_update_iff] using hmask
  | final =>
    have hword : Command.final.toWord = 0x00000003 := rfl
    have hmask : w &&& 0xFFFFFFFF = w := BitVec.and_allOnes
    simp only [Command.row, hmask, decodeWord_eq_ok_iff, hword]
    simp
  | lookup _ =>
    have hmask : w &&& 0xFFFFFFCF = 0x00000004 ↔ _ := and_mask_alg_free_iff (op := 4)
    simpa [Command.row, decodeWord_eq_lookup_iff] using hmask

/-- R75: a word is well-formed when its `OP` is that of a command and the fields the table marks are zero. -/
theorem exists_decodeWord_eq_ok_iff : (∃ c, decodeWord w = .ok c) ↔ rsvField w = 0 ∧
    (opField w = 1 ∧ lenField24 w = 0 ∨ opField w = 2 ∧ algField w = 0 ∨
      opField w = 3 ∧ algField w = 0 ∧ lenField24 w = 0 ∨ opField w = 4 ∧ lenField24 w = 0) := by
  simp only [exists_command_iff, decodeWord_eq_init_iff, decodeWord_eq_update_iff, decodeWord_eq_final_iff,
    decodeWord_eq_lookup_iff]
  constructor
  · rintro (⟨_, hop, -, hrsv, hlen⟩ | ⟨_, hop, halg, hrsv, -⟩ | ⟨hop, halg, hrsv, hlen⟩ | ⟨_, hop, -, hrsv, hlen⟩) <;>
      simp [*]
  · rintro ⟨hrsv, ⟨hop, hlen⟩ | ⟨hop, halg⟩ | ⟨hop, halg, hlen⟩ | ⟨hop, hlen⟩⟩ <;> simp [*]

/-- Settles O3: the fields of a well-formed word, and the row each such word selects, which is one as its command is. -/
theorem tableRowsAgreeWithDecoder : Obligations.TableRowsAgreeWithDecoder := by
  refine ⟨fun _ => rfl, fun _ => rfl, rfl, fun _ => rfl, fun w => ⟨exists_decodeWord_eq_ok_iff,
    fun c hc => selects_row_iff.mpr ⟨c, hc, rfl⟩, fun c => selects_row_iff.mp, fun c d hc hd => ?_⟩⟩
  obtain ⟨c', hdecode, hrow⟩ := selects_row_iff.mp hc
  obtain ⟨d', hdecode', hrow'⟩ := selects_row_iff.mp hd
  obtain rfl : c' = d' := by simpa [hdecode] using hdecode'
  exact hrow.symm.trans hrow'

end Sys2Proof.Machine
end

section
/-! PROOFS. Decoding and encoding are inverse (30 R71, R74, R79): a transaction or a request decodes to an instruction
exactly when it is the encoding of that instruction, which is then well-formed. -/

namespace Sys2Proof.Machine

/-- A transaction decodes when its word does and its payload is the bytes the command announces (R74, R284). -/
theorem decodeTransaction_eq_ok_iff {t : Transaction} {i : Instr} : decodeTransaction t = .ok i ↔
    ∃ c, decodeWord t.word = .ok c ∧ t.payload.length = c.payloadLength ∧ c.withPayload t.payload = i := by
  unfold decodeTransaction
  cases decodeWord t.word with
  | error _ =>
    simp only
    split_ifs <;> simp
  | ok c =>
    simp only
    split_ifs with hlen <;> simp [hlen]

/-- A command with the payload it announces is encoded by its word and that payload. -/
theorem encode_withPayload {c : Command} {p : List Byte} (h : p.length = c.payloadLength) :
    encode (c.withPayload p) = .command ⟨c.toWord, p⟩ := by
  cases c with
  | update len => simp [Command.withPayload, encode, Command.toWord, show p.length = len.toNat from h]
  | init _ | final | lookup _ => rw [List.eq_nil_of_length_eq_zero h]; rfl

theorem wellFormed_withPayload {c : Command} {p : List Byte} (h : p.length = c.payloadLength) :
    (c.withPayload p).wellFormed = true := by
  cases c with
  | update len => simp [Command.withPayload, Instr.wellFormed, show p.length = len.toNat from h, len.isLt]
  | init _ | final | lookup _ => rfl

/-- What a transaction encodes is a command with the payload it announces. -/
theorem exists_command_of_encode {t : Transaction} {i : Instr} (he : encode i = .command t) (hwf : i.wellFormed = true) :
    ∃ c : Command, t.word = c.toWord ∧ t.payload.length = c.payloadLength ∧ c.withPayload t.payload = i := by
  cases i with
  | init alg => cases he; exact ⟨.init alg, rfl, rfl, rfl⟩
  | update data =>
    cases he
    have hlt : data.length < 2 ^ 24 := of_decide_eq_true hwf
    exact ⟨.update (BitVec.ofNat 24 data.length), rfl, (Nat.mod_eq_of_lt hlt).symm, rfl⟩
  | final => cases he; exact ⟨.final, rfl, rfl, rfl⟩
  | lookup alg => cases he; exact ⟨.lookup alg, rfl, rfl, rfl⟩
  | md5Transform _ _ | sha256Transform _ _ => cases he

/-- Format C: a transaction decodes to what it encodes, and to nothing else. -/
theorem decodeTransaction_eq_ok_iff_encode {t : Transaction} {i : Instr} :
    decodeTransaction t = .ok i ↔ encode i = .command t ∧ i.wellFormed = true := by
  simp only [decodeTransaction_eq_ok_iff, decodeWord_eq_ok_iff]
  constructor
  · rintro ⟨c, hword, hlen, rfl⟩
    rw [encode_withPayload hlen, ← hword]
    exact ⟨rfl, wellFormed_withPayload hlen⟩
  · exact fun ⟨he, hwf⟩ => exists_command_of_encode he hwf

/-- Format T: a request decodes to what it encodes, and to nothing else. -/
theorem decodeUnit_eq_ok_iff_encode {r : UnitRequest} {i : Instr} :
    decodeUnit r = .ok i ↔ encode i = .unit r ∧ i.wellFormed = true := by
  constructor
  · obtain ⟨unit, words, block⟩ := r
    simp only [decodeUnit]
    split_ifs with hblock hunit
    · split
      · rintro ⟨⟩
        exact ⟨by rw [hunit]; rfl, decide_eq_true hblock⟩
      · nofun
    · obtain rfl : unit = 1 := (BitVec.eq_zero_or_eq_one unit).resolve_left hunit
      split
      · rintro ⟨⟩
        exact ⟨rfl, decide_eq_true hblock⟩
      · nofun
    · nofun
  · rintro ⟨he, hwf⟩
    cases i with
    | md5Transform st blk | sha256Transform st blk =>
      cases he
      exact if_pos (of_decide_eq_true hwf)
    | init _ | update _ | final | lookup _ => cases he

/-- Over both encoded forms, decoding is the inverse of encoding on the well-formed instructions. -/
theorem decode_eq_ok_iff_encode {e : Encoded} {i : Instr} : decode e = .ok i ↔ encode i = e ∧ i.wellFormed = true := by
  cases e with
  | command t => exact decodeTransaction_eq_ok_iff_encode
  | unit r => exact decodeUnit_eq_ok_iff_encode

/-- Settles O4, by the inverse read from the encoding. -/
theorem decodeOfEncode : Obligations.DecodeOfEncode := fun _ hwf => decode_eq_ok_iff_encode.mpr ⟨rfl, hwf⟩

/-- Settles O5, by the inverse read from the decoding. -/
theorem encodeOfDecode : Obligations.EncodeOfDecode := fun _ _ => decode_eq_ok_iff_encode.mp

end Sys2Proof.Machine
end

section
/-! PROOFS. The transform step as a request of format T (30 R79, 42 R166), and the transactions without a step (70 R284). -/

namespace Sys2Proof.Machine

variable {s : State}

/-- R166: the transform step of an MD5 context replaces the first four state words. -/
theorem transformCtx_of_md5 (h : s.ctxAlg = 0) (blk : List Byte) :
    transformCtx blk s = .ok (s.withWords (s.h.withMd5 (transformMd5 s.h.md5 blk))) :=
  if_pos h

/-- R166: the transform step of a SHA-256 context replaces all eight state words. -/
theorem transformCtx_of_sha256 (h : s.ctxAlg = 1) (blk : List Byte) :
    transformCtx blk s = .ok (s.withWords (StateWords.ofSha256 (transformSha256 s.h.sha256 blk))) := by
  simp [transformCtx, h]

theorem withWords_frame (h : StateWords) : s.withWords h = { s with h := (s.withWords h).h } := rfl

/-- R166: MD5's words leave `H[4..7]` alone. -/
theorem withMd5_upper_words (h : StateWords) (w : Md5Words) : (h.withMd5 w).h4 = h.h4 ∧ (h.withMd5 w).h5 = h.h5 ∧
    (h.withMd5 w).h6 = h.h6 ∧ (h.withMd5 w).h7 = h.h7 := ⟨rfl, rfl, rfl, rfl⟩

/-- Settles O31: the request with the context's tag decodes to its transform, and unit and context compute the same words. -/
theorem transformStepIsUnitRequest : Obligations.TransformStepIsUnitRequest := by
  intro s blk halg hblk
  rcases halg with h | h
  · have hd : decodeUnit ⟨0, s.h.md5.toList, blk⟩ = .ok (.md5Transform s.h.md5 blk) :=
      decodeUnit_eq_ok_iff_encode.mpr ⟨rfl, decide_eq_true hblk⟩
    refine ⟨.md5Transform s.h.md5 blk, _, _, ?_, rfl, transformCtx_of_md5 h blk, withWords_frame _, ?_,
      fun _ => withMd5_upper_words _ _⟩
    · simpa [h] using hd
    · simp [h]
  · have hd : decodeUnit ⟨1, s.h.sha256.toList, blk⟩ = .ok (.sha256Transform s.h.sha256 blk) :=
      decodeUnit_eq_ok_iff_encode.mpr ⟨rfl, decide_eq_true hblk⟩
    refine ⟨.sha256Transform s.h.sha256 blk, _, _, ?_, rfl, transformCtx_of_sha256 h blk, withWords_frame _, ?_,
      fun hmd5 => ?_⟩
    · simpa [h] using hd
    · simp [h]
    · simp [h] at hmd5

theorem runTransaction_of_framing {t : Transaction} (h : decodeTransaction t = .error .payloadFraming) :
    runTransaction t s = .refused .payloadFraming := by
  simp only [runTransaction, h]

/-- R284: a payload that is not the bytes the command announces. -/
theorem decodeTransaction_of_wrong_length {t : Transaction} {c : Command} (hd : decodeWord t.word = .ok c)
    (hlen : t.payload.length ≠ c.payloadLength) : decodeTransaction t = .error .payloadFraming := by
  simp [decodeTransaction, hd, hlen]

/-- R76: an ill-formed word announces no payload. -/
theorem decodeTransaction_of_illegal_with_payload {t : Transaction} {why : Illegal} (hd : decodeWord t.word = .error why)
    (hne : t.payload ≠ []) : decodeTransaction t = .error .payloadFraming := by
  simp [decodeTransaction, hd, hne]

/-- Settles O9: both wrong framings are refused at the port. -/
theorem wrongPayloadLengthHasNoStep : Obligations.WrongPayloadLengthHasNoStep := by
  intro s t rest hq hi
  rw [step_of_event hq hi, runEvent]
  exact ⟨fun c hd hlen => runTransaction_of_framing (decodeTransaction_of_wrong_length hd hlen),
    fun why hd hne => runTransaction_of_framing (decodeTransaction_of_illegal_with_payload hd hne)⟩

end Sys2Proof.Machine
end

section
/-! PROOFS. The assembler (30 R80, R81, R82): how a payload is cut, and what each line assembles to and decodes to. -/

namespace Sys2Proof.Machine

variable {bytes : List Byte} {n : Nat}

/-- The pieces cover the payload in order, wherever it is cut. -/
@[simp] theorem flatten_cutPayload (n : Nat) (x : List Byte) : (cutPayload n x).flatten = x := by
  induction n generalizing x with
  | zero => simp [cutPayload]
  | succ n ih => simp [cutPayload, ih]

theorem length_le_of_mem_cutPayload {x p : List Byte} (hx : x.length ≤ (n + 1) * maxUpdateBytes)
    (hp : p ∈ cutPayload n x) : p.length ≤ maxUpdateBytes := by
  induction n generalizing x with
  | zero =>
    obtain rfl := List.mem_singleton.mp hp
    simpa using hx
  | succ n ih =>
    rcases List.mem_cons.mp hp with rfl | hrest
    · exact List.length_take_le _ _
    · refine ih ?_ hrest
      rw [Nat.succ_mul] at hx
      rw [List.length_drop]
      omega

/-- R81: every piece fits one UPDATE. -/
theorem length_le_of_mem_updatePieces {p : List Byte} (hp : p ∈ updatePieces bytes) : p.length ≤ maxUpdateBytes := by
  refine length_le_of_mem_cutPayload ?_ hp
  have hlt := Nat.lt_div_mul_add (a := bytes.length - 1) (show 0 < maxUpdateBytes by decide)
  rw [Nat.succ_mul]
  omega

/-- R80: a payload that fits one UPDATE is not cut. -/
theorem updatePieces_of_fits (h : bytes.length ≤ maxUpdateBytes) : updatePieces bytes = [bytes] := by
  have hpos : 0 < maxUpdateBytes := by decide
  rw [updatePieces, Nat.div_eq_of_lt (by omega), cutPayload]

theorem commandWord_len_zero (op : BitVec 4) (alg : Tag) :
    commandWord op alg 0 = op.setWidth 32 ||| (alg.setWidth 32 <<< 4) := by
  simp [commandWord]

theorem assemble_init (alg : Tag) : assemble (.init alg) = [⟨0x00000001 ||| (alg.setWidth 32 <<< 4), []⟩] :=
  congrArg (fun w => [Transaction.mk w []]) (commandWord_len_zero 0x1 alg)

theorem assemble_lookup (alg : Tag) : assemble (.lookup alg) = [⟨0x00000004 ||| (alg.setWidth 32 <<< 4), []⟩] :=
  congrArg (fun w => [Transaction.mk w []]) (commandWord_len_zero 0x4 alg)

/-- R80: the word of an UPDATE whose payload fits it. -/
theorem updateWord_eq (h : n ≤ maxUpdateBytes) :
    commandWord 0x2 0 (BitVec.ofNat 24 n) = (BitVec.ofNat 32 n <<< 8) ||| 0x2 := by
  have hlen : (BitVec.ofNat 24 n).setWidth 32 = BitVec.ofNat 32 n :=
    BitVec.setWidth_ofNat_of_le_of_lt (by decide) (Nat.lt_succ_of_le h)
  rw [commandWord, hlen, BitVec.or_comm]
  rfl

/-- An `update` line assembles to one UPDATE for each piece of its payload. -/
theorem assemble_update (bytes : List Byte) : assemble (.update bytes) =
    (updatePieces bytes).map (fun p => ⟨commandWord 0x2 0 (BitVec.ofNat 24 p.length), p⟩) := by
  simp [assemble, AsmLine.instrs, List.filterMap_map, encode, transactionOf]

/-- R80: a payload that fits one UPDATE assembles to one transaction. -/
theorem assemble_update_of_fits (h : bytes.length ≤ maxUpdateBytes) :
    assemble (.update bytes) = [⟨(BitVec.ofNat 32 bytes.length <<< 8) ||| 0x2, bytes⟩] := by
  rw [assemble_update, updatePieces_of_fits h, List.map_singleton, updateWord_eq h]

theorem map_decodeTransaction_assemble_update (bytes : List Byte) :
    (assemble (.update bytes)).map decodeTransaction = (updatePieces bytes).map (fun p => .ok (.update p)) := by
  rw [assemble_update, List.map_map]
  refine List.map_congr_left fun p hp => decodeTransaction_eq_ok_iff_encode.mpr ⟨rfl, decide_eq_true ?_⟩
  exact Nat.lt_succ_of_le (length_le_of_mem_updatePieces hp)

/-- R81: `hash` is `init`, `update` and `final` in a row. -/
theorem assemble_hash (alg : Tag) (bytes : List Byte) :
    assemble (.hash alg bytes) = assemble (.init alg) ++ assemble (.update bytes) ++ assemble .final := by
  simp [assemble, AsmLine.instrs, encode, transactionOf]

/-- A well-formed instruction alone on a line, as a command, decodes to itself. -/
theorem map_decodeTransaction_singleton {t : Transaction} {i : Instr} (he : encode i = .command t)
    (hwf : i.wellFormed = true) : [t].map decodeTransaction = [.ok i] := by
  rw [List.map_singleton, decodeTransaction_eq_ok_iff_encode.mpr ⟨he, hwf⟩]

/-- Settles O52: the words of R80 line by line, the decoding of each line, and the pieces of a payload. -/
theorem assembledLinesDecode : Obligations.AssembledLinesDecode := by
  refine ⟨fun alg => ⟨assemble_init alg, map_decodeTransaction_singleton rfl rfl⟩,
    fun alg => ⟨assemble_lookup alg, map_decodeTransaction_singleton rfl rfl⟩,
    ⟨rfl, map_decodeTransaction_singleton rfl rfl⟩, fun _ => rfl, fun _ => assemble_update_of_fits,
    map_decodeTransaction_assemble_update, assemble_hash, fun _ => rfl,
    fun _ => ⟨flatten_cutPayload _ _, fun _ => length_le_of_mem_updatePieces, updatePieces_of_fits⟩⟩

/-- Settles O1: the lines of R82, those of fixed operands evaluated, and INIT of tag 2 by R160. -/
theorem sampleEncodings : Obligations.SampleEncodings := by
  refine ⟨rfl, rfl, rfl, rfl, fun s => execInit_eq 2, assemble_update_of_fits (by decide),
    assemble_update_of_fits (by decide), fun bytes h => ?_, rfl, rfl, fun w hw => ⟨rfl, ?_⟩⟩
  · rw [assemble_update_of_fits (by rw [h]; decide), h]
    rfl
  · rcases hw with rfl | rfl | rfl | rfl <;> exact ⟨_, rfl⟩

end Sys2Proof.Machine
end

section
/-! PROOFS. The MD5 transform (40 R100 to R113): the table of constants, and the rounds one by one, each in the spec's terms. -/

namespace Sys2Proof.Machine

/-- R104: every round reads one of the sixteen message words. -/
theorem md5Index_lt (i : Nat) : md5Index i < 16 := by
  unfold md5Index
  split_ifs <;> omega

/-- R103: the rotation amount as one entry of its group's list. -/
theorem md5Rotate_eq (i : Nat) :
    md5Rotate i = if i < 16 then [7, 12, 17, 22].getD (i % 4) 0 else if i < 32 then [5, 9, 14, 20].getD (i % 4) 0
      else if i < 48 then [4, 11, 16, 23].getD (i % 4) 0 else [6, 10, 15, 21].getD (i % 4) 0 := by
  unfold md5Rotate md5RotateGroup
  split_ifs <;> rfl

/-- R111: word `j` of the sixteen that a block is read as. -/
theorem getD_messageWordsLE (blk : List Byte) {j : Nat} (hj : j < 16) :
    (messageWordsLE blk).getD j 0 = messageWordLE blk j := by
  simp [messageWordsLE, List.getD_eq_getElem?_getD, hj]

@[simp] theorem md5Rounds_zero (st : Md5Words) (blk : List Byte) : md5Rounds 0 st blk = st := rfl

/-- R110: one round more is that round on the working variables so far. -/
theorem md5Rounds_succ (n : Nat) (st : Md5Words) (blk : List Byte) :
    md5Rounds (n + 1) st blk = md5Round (messageWordsLE blk) (md5Rounds n st blk) n := by
  simp [md5Rounds, List.range_succ]

/-- R112: a round on the message words of a block. -/
theorem md5Round_messageWordsLE (blk : List Byte) (v : Md5Words) (i : Nat) :
    md5Round (messageWordsLE blk) v i =
      ⟨v.d, v.b + rotl32 (v.a + md5Mix i v.b v.c v.d + md5K i + messageWordLE blk (md5Index i)) (md5Rotate i), v.b, v.c⟩ := by
  rw [md5Round, getD_messageWordsLE blk (md5Index_lt i)]

/-- R110, R113: the unit's words are the state words plus the working variables, and no register is written. -/
theorem exec_md5Transform (st : Md5Words) (blk : List Byte) (s : State) :
    exec (.md5Transform st blk) s = .next { s with unitReply := some (md5Add st (md5Rounds 64 st blk)).toList } := rfl

/-- Settles O29: the table by evaluation, and each round by R112 on the message words of R111. -/
theorem md5TransformReturnsWords : Obligations.Md5TransformReturnsWords := by
  refine ⟨by decide, fun st blk s _ => ⟨exec_md5Transform st blk s, md5Rounds_zero st blk, fun i _ => ?_⟩⟩
  rw [md5Rounds_succ, md5Round_messageWordsLE, md5Rotate_eq]
  rfl

end Sys2Proof.Machine
end

section
/-! PROOFS. INIT of a known tag (42 R160 to R162): what it answers in every state. -/

namespace Sys2Proof.Machine

/-- R160: INIT with tag 0 or 1 starts a context, whatever the state. -/
theorem exec_init_ok (s : State) {alg : Tag} (h : alg = 0 ∨ alg = 1) : exec (.init alg) s = .next (startContext alg s) := by
  rw [exec, execInit_eq, if_pos h]

/-- R24, R160: the buffer is empty, since `BITCOUNT` is 0. -/
@[simp] theorem startContext_fill (s : State) (alg : Tag) : (startContext alg s).fill = 0 := by
  simp [State.fill]

/-- Settles O16: the words loaded are those of R105 and R135, and the fill is that of an empty message. -/
theorem initStartsContext : Obligations.InitStartsContext := by
  refine fun s alg h => ⟨_, exec_init_ok s h, rfl, ?_, ?_, startContext_fill s alg, fun _ => rfl⟩
  · rintro rfl
    exact md5_initialWords s.engine s.wordDraws
  · rintro rfl
    exact sha256_initialWords s.engine s.wordDraws

end Sys2Proof.Machine
end

section
/-! PROOFS. The SHA-256 transform (41 R130 to R144): the schedule word by word, and the rounds one by one, each in the spec's
terms. -/

namespace Sys2Proof.Machine

/-- R141, R142: the schedule when `n` of the words of R142 stand behind the sixteen of R141. -/
def shaScheduleUpTo (blk : List Byte) (n : Nat) : List Word :=
  (List.range' 16 n).foldl (fun w t => w ++ [shaScheduleWord w t]) (messageWordsBE blk)

/-- R142: one schedule word more is the recurrence on the words so far. -/
theorem shaScheduleUpTo_succ (blk : List Byte) (n : Nat) :
    shaScheduleUpTo blk (n + 1) = shaScheduleUpTo blk n ++ [shaScheduleWord (shaScheduleUpTo blk n) (16 + n)] := by
  simp [shaScheduleUpTo, List.range'_concat]

@[simp] theorem length_shaScheduleUpTo (blk : List Byte) (n : Nat) : (shaScheduleUpTo blk n).length = 16 + n := by
  induction n with
  | zero => simp [shaScheduleUpTo, messageWordsBE]
  | succ n ih => simp [shaScheduleUpTo_succ, ih, Nat.add_assoc]

/-- A schedule word stays as it is once it stands. -/
theorem getD_shaSchedule (blk : List Byte) {n t : Nat} (hn : n ≤ 48) (ht : t < 16 + n) :
    (shaSchedule blk).getD t 0 = (shaScheduleUpTo blk n).getD t 0 := by
  have hall : ∀ m, n ≤ m → (shaScheduleUpTo blk m).getD t 0 = (shaScheduleUpTo blk n).getD t 0 := by
    intro m hm
    induction m, hm using Nat.le_induction with
    | base => rfl
    | succ m hm ih => rw [shaScheduleUpTo_succ, List.getD_append _ _ _ _ (by simp; omega), ih]
  exact hall 48 hn

/-- R141: the first sixteen schedule words are the message words. -/
theorem getD_shaSchedule_message (blk : List Byte) {j : Nat} (hj : j < 16) :
    (shaSchedule blk).getD j 0 = messageWordBE blk j := by
  rw [getD_shaSchedule blk (Nat.zero_le 48) hj]
  simp [shaScheduleUpTo, messageWordsBE, List.getD_eq_getElem?_getD, hj]

/-- The recurrence of R142 looks at earlier words only. -/
theorem shaScheduleWord_congr {v w : List Word} {t : Nat} (ht : 16 ≤ t) (h : ∀ k < t, v.getD k 0 = w.getD k 0) :
    shaScheduleWord v t = shaScheduleWord w t := by
  have hback : ∀ d, 0 < d → v.getD (t - d) 0 = w.getD (t - d) 0 := fun d hd => h _ (by omega)
  simp only [shaScheduleWord, hback, Nat.reduceLT]

/-- R142: every later schedule word is the recurrence on the schedule itself. -/
theorem getD_shaSchedule_recurrence (blk : List Byte) {t : Nat} (hlow : 16 ≤ t) (hhigh : t < 64) :
    (shaSchedule blk).getD t 0 = shaScheduleWord (shaSchedule blk) t := by
  obtain ⟨n, rfl⟩ := Nat.exists_eq_add_of_le hlow
  have hword : (shaSchedule blk).getD (16 + n) 0 = shaScheduleWord (shaScheduleUpTo blk n) (16 + n) := by
    rw [getD_shaSchedule blk (n := n + 1) (by omega) (by omega), shaScheduleUpTo_succ]
    simp [List.getD_eq_getElem?_getD]
  rw [hword]
  exact shaScheduleWord_congr hlow fun k hk => (getD_shaSchedule blk (by omega) hk).symm

/-- R140: one round more is that round on the working variables so far. -/
theorem shaRounds_succ (n : Nat) (st : Sha256Words) (blk : List Byte) :
    shaRounds (n + 1) st blk = shaRound (shaSchedule blk) (shaRounds n st blk) n := by
  simp [shaRounds, List.range_succ]

/-- R140, R144: the unit's words are the state words plus the working variables, and no register is written. -/
theorem exec_sha256Transform (st : Sha256Words) (blk : List Byte) (s : State) :
    exec (.sha256Transform st blk) s = .next { s with unitReply := some (shaAdd st (shaRounds 64 st blk)).toList } := rfl

/-- Settles O30: the table by evaluation, the schedule by R141 and R142, and each round by R143. -/
theorem sha256TransformReturnsWords : Obligations.Sha256TransformReturnsWords :=
  ⟨by decide, fun st blk s _ => ⟨exec_sha256Transform st blk s, rfl, fun _ hj => getD_shaSchedule_message blk hj,
    fun _ hlow hhigh => getD_shaSchedule_recurrence blk hlow hhigh, fun t _ => shaRounds_succ t st blk⟩⟩

end Sys2Proof.Machine
end

section
/-! PROOFS. The constants of SHA-256 (41 R134, R135): the first sixty-four primes, and the bits of their roots. -/

namespace Sys2Proof.Machine

/-- In the list of the numbers with a property, in order, `i` of them come before entry `i`. -/
theorem count_getD_filter_range (P : Nat → Prop) [DecidablePred P] {n i : Nat} (hi : i < ((List.range n).filter P).length) :
    Nat.count P (((List.range n).filter P).getD i 0) = i := by
  induction n with
  | zero => simp at hi
  | succ n ih =>
    rw [List.range_succ, List.filter_append] at hi ⊢
    by_cases hlt : i < ((List.range n).filter P).length
    · rw [List.getD_append _ _ _ _ hlt, ih hlt]
    · have hn : P n := by
        by_contra hn
        simp [hn] at hi
        omega
      obtain rfl : i = ((List.range n).filter P).length := by
        simp [hn] at hi
        omega
      simp [hn, Nat.count, List.countP_eq_length_filter]

/-- A number below 18² is prime when no number below 18 but 1 and itself divides it. -/
theorem prime_iff_trial_division {p : Nat} (hp : p < 18 ^ 2) : p.Prime ↔ 2 ≤ p ∧ ∀ m < 18, m ∣ p → m < 2 ∨ m = p := by
  refine ⟨fun h => ⟨h.two_le, fun m _ hm => (h.eq_one_or_self_of_dvd m hm).imp_left (·.trans_lt one_lt_two)⟩, ?_⟩
  rintro ⟨h2, hm⟩
  refine Nat.prime_def_le_sqrt.mpr ⟨h2, fun m hm2 hle hd => ?_⟩
  have hself := Nat.sqrt_lt_self h2
  have h18 := Nat.sqrt_lt'.mpr hp
  rcases hm m (by omega) hd with h | h <;> omega

/-- The first sixty-four primes, in order. -/
def shaPrimes : List Nat :=
  [2, 3, 5, 7, 11, 13, 17, 19, 23, 29, 31, 37, 41, 43, 47, 53, 59, 61, 67, 71, 73, 79, 83, 89, 97, 101, 103, 107, 109, 113,
   127, 131, 137, 139, 149, 151, 157, 163, 167, 173, 179, 181, 191, 193, 197, 199, 211, 223, 227, 229, 233, 239, 241, 251,
   257, 263, 269, 271, 277, 281, 283, 293, 307, 311]

theorem shaPrimes_eq_filter : shaPrimes = (List.range 312).filter Nat.Prime := by
  have htrial : (List.range 312).filter (fun p => 2 ≤ p ∧ ∀ m < 18, m ∣ p → m < 2 ∨ m = p) = shaPrimes := by decide +kernel
  rw [← htrial]
  refine List.filter_congr fun p hp => ?_
  have hlt : p < 18 ^ 2 := (List.mem_range.mp hp).trans (by decide)
  simp only [prime_iff_trial_division hlt]

/-- R134, R135: entry `i` is the `i`-th prime, counted from 0. -/
theorem shaPrimes_spec {i : Nat} (hi : i < 64) :
    (shaPrimes.getD i 0).Prime ∧ Nat.count Nat.Prime (shaPrimes.getD i 0) = i := by
  have hlen : i < shaPrimes.length := hi
  constructor
  · have hmem : shaPrimes.getD i 0 ∈ (List.range 312).filter Nat.Prime := by
      rw [← shaPrimes_eq_filter, List.getD_eq_getElem _ _ hlen]
      exact List.getElem_mem hlen
    simpa using List.of_mem_filter hmem
  · rw [shaPrimes_eq_filter] at hlen ⊢
    exact count_getD_filter_range _ hlen

/-- R134: the fractional part of a cube root, cut to 32 bits, is the low 32 bits of the integer root of `p · 2^96`. -/
theorem shaK_eq_root : ∀ t < 64, (shaK t).toNat = Nat.nthRoot 3 (shaPrimes.getD t 0 * (2 ^ 32) ^ 3) % 2 ^ 32 := by
  decide +kernel

/-- R135: the same of the square root, from `p · 2^64`. -/
theorem sha256Initial_eq_root :
    ∀ j < 8, (sha256Initial.toList.getD j 0).toNat = Nat.nthRoot 2 (shaPrimes.getD j 0 * (2 ^ 32) ^ 2) % 2 ^ 32 := by
  decide +kernel

/-- Settles O32: the primes are those of the table, and the roots are integer roots. -/
theorem sha256ConstantsAreRootsOfPrimes : Obligations.Sha256ConstantsAreRootsOfPrimes := by
  refine ⟨fun t ht => ?_, fun j hj => ?_⟩
  · obtain ⟨hprime, hcount⟩ := shaPrimes_spec ht
    exact ⟨_, _, hprime, hcount, Nat.pow_nthRoot_le (.inl three_ne_zero), Nat.lt_pow_nthRoot_add_one three_ne_zero _,
      shaK_eq_root t ht⟩
  · obtain ⟨hprime, hcount⟩ := shaPrimes_spec (hj.trans (by decide))
    exact ⟨_, _, hprime, hcount, Nat.pow_nthRoot_le (.inl two_ne_zero), Nat.lt_pow_nthRoot_add_one two_ne_zero _,
      sha256Initial_eq_root j hj⟩

end Sys2Proof.Machine
end

section
/-! PROOFS. INIT in a row (42 R160) and UPDATE (42 R163 to R167, R170, R171): the next state of an UPDATE that passes its
checks in the two branches of R165, and that an empty one only enters ACCUM. -/

namespace Sys2Proof.Machine

variable {s : State} {data : List Byte}

/-- Settles O18: both INITs load the same specified words, and SHA-256 leaves no word unspecified. -/
theorem initTwiceIsInitOnce : Obligations.InitTwiceIsInitOnce := by
  intro s t alg halg h
  obtain rfl : startContext alg s = t := by simpa [exec_init_ok s halg] using h
  refine ⟨_, exec_init_ok _ halg, rfl, ?_, ?_⟩
  · rcases halg with rfl | rfl
    · exact (md5_initialWords _ _).trans (md5_initialWords _ _).symm
    · rfl
  · rintro rfl
    rfl

/-- R165: a payload that leaves room in the buffer is appended. -/
theorem exec_update_short (herr : s.err = .none) (ho : s.Open) (hb : s.bitCount.toNat + 8 * data.length < 2 ^ 64)
    (hd : data.length < 64 - s.fill) : exec (.update data) s = .next (shortUpdate data s) := by
  rw [exec_update_ok herr ho hb, appendPayload_short hd, ofResult]

/-- R165: a payload that fills the buffer is transformed up to its tail. -/
theorem exec_update_long (herr : s.err = .none) (ho : s.Open) (hb : s.bitCount.toNat + 8 * data.length < 2 ^ 64)
    (halg : s.ctxAlg = 0 ∨ s.ctxAlg = 1) (hd : 64 - s.fill ≤ data.length) :
    exec (.update data) s = .next (longUpdate data s) := by
  rw [exec_update_ok herr ho hb, appendPayload_long halg hd, ofResult]

theorem shortUpdate_fill (hb : s.bitCount.toNat + 8 * data.length < 2 ^ 64) :
    (shortUpdate data s).fill = (s.fill + data.length) % 64 := fill_of_bitCount_add hb rfl

theorem longUpdate_fill (hb : s.bitCount.toNat + 8 * data.length < 2 ^ 64) :
    (longUpdate data s).fill = (s.fill + data.length) % 64 := fill_of_bitCount_add hb rfl

/-- Settles O19: the state of the appending branch, read field by field. -/
theorem shortUpdateAppends : Obligations.ShortUpdateAppends := by
  intro s data herr ho hb hd
  refine ⟨_, exec_update_short herr ho hb hd, rfl, toNat_bitCount_add hb, ?_, holds_setList s s.buffer _ data,
    fun _ ha => bufferByte_setList_outside ha⟩
  rw [shortUpdate_fill hb, Nat.mod_eq_of_lt (by omega)]

/-- Settles O20: the state of the transforming branch, whose buffer lists the tail and nothing else. -/
theorem longUpdateTransforms : Obligations.LongUpdateTransforms := by
  intro s data herr ho hb halg hd
  have hfill : (longUpdate data s).fill = (tailBytes (s.pending ++ data)).length := by
    simp [longUpdate_fill hb]
  refine ⟨_, exec_update_long herr ho hb halg hd, rfl, rfl, toNat_bitCount_add hb, hfill,
    holds_setList s [] 0 _, fun a ha => ?_⟩
  rw [hfill] at ha
  exact byte?_setList_outside (.inr (by omega))

/-- Settles O21: the chain over the pending bytes and the payload has `(f + LEN) / 64` blocks, none when they do not fill
the buffer. -/
theorem updateTransformCount : Obligations.UpdateTransformCount := by
  intro s data herr ho hb halg
  have hchain : chainBlocks (foldBlock s.ctxAlg) ((s.fill + data.length) / 64) s.h (s.pending ++ data) =
      chainCtx s.ctxAlg s.h (s.pending ++ data) := by
    rw [chainCtx, List.length_append, length_pending]
  rw [hchain]
  rcases Nat.lt_or_ge data.length (64 - s.fill) with hd | hd
  · refine ⟨_, exec_update_short herr ho hb hd, ?_, shortUpdate_fill hb⟩
    exact (chainCtx_of_lt (by simp; omega)).symm
  · exact ⟨_, exec_update_long herr ho hb halg hd, rfl, longUpdate_fill hb⟩

/-- R170: appending no byte changes `LC` alone. -/
theorem shortUpdate_nil : shortUpdate [] s = { s with lc := .accum } := by
  simp [shortUpdate, State.withBuffer]

/-- FINAL does not look at `LC` once its checks have passed. -/
theorem emitDigest_withLc (lc : Lifecycle) : emitDigest { s with lc := lc } = emitDigest s := by
  by_cases halg : s.ctxAlg = 0 ∨ s.ctxAlg = 1
  · rw [emitDigest_ok halg, emitDigest_ok (s := { s with lc := lc }) halg]
    rfl
  · rw [emitDigest_illegal halg, emitDigest_illegal (s := { s with lc := lc }) halg]

/-- UPDATE does not look at `LC` once its checks have passed. -/
theorem appendPayload_withLc (lc : Lifecycle) : appendPayload data { s with lc := lc } = appendPayload data s := by
  rcases Nat.lt_or_ge data.length (64 - s.fill) with hd | hd
  · rw [appendPayload_short hd, appendPayload_short (s := { s with lc := lc }) hd]
    rfl
  by_cases halg : s.ctxAlg = 0 ∨ s.ctxAlg = 1
  · rw [appendPayload_long halg hd, appendPayload_long (s := { s with lc := lc }) halg hd]
    rfl
  · rw [appendPayload_illegal halg hd, appendPayload_illegal (s := { s with lc := lc }) halg hd]

/-- A FINAL that passes the checks of R240 runs its effect, whatever the tag. -/
theorem exec_final_of_open (herr : s.err = .none) (ho : s.Open) : exec .final s = ofResult (emitDigest s) := by
  have hlc : ¬ (s.lc = .uninit ∨ s.lc = .finalized) := fun h => not_open_iff.mpr h ho
  rw [exec, execFinal, if_neg (by simp [herr]), if_neg hlc]

/-- Settles O22: no byte is appended, and what follows sees an open context with the same registers. -/
theorem emptyUpdateOnlyEntersAccum : Obligations.EmptyUpdateOnlyEntersAccum := by
  intro s herr ho
  have ho' : State.Open { s with lc := .accum } := .inr rfl
  refine ⟨?_, ?_, fun data hb => ?_⟩
  · rw [exec_update_short (data := []) herr ho s.bitCount.isLt (Nat.sub_pos_of_lt (fill_lt s)), shortUpdate_nil]
  · rw [exec_final_of_open herr ho, exec_final_of_open (s := { s with lc := .accum }) herr ho', emitDigest_withLc]
  · rw [exec_update_ok herr ho hb, exec_update_ok (s := { s with lc := .accum }) herr ho' hb, appendPayload_withLc]

end Sys2Proof.Machine
end

section
/-! PROOFS. Whole messages (42 R164, R168): what an open context has absorbed, along every run and for every split of a
message. -/

namespace Sys2Proof.Machine

variable {i : Instr} {is : List Instr} {s t : State} {m data : List Byte}

/-! ### What an absorbed message determines -/

theorem absorbed_bitCount (h : s.Absorbed m) : s.bitCount.toNat = 8 * m.length := h.2.1

/-- R164: the state words of an MD5 context chain the message. -/
theorem absorbed_md5 (h : s.Absorbed m) (halg : s.ctxAlg = 0) : s.h.md5 = chainMd5 md5Initial m := by
  rcases h.1 with ⟨-, hc⟩ | ⟨h1, -⟩
  · exact hc
  · simp [halg] at h1

/-- R164: the state words of a SHA-256 context chain the message. -/
theorem absorbed_sha256 (h : s.Absorbed m) (halg : s.ctxAlg = 1) : s.h.sha256 = chainSha256 sha256Initial m := by
  rcases h.1 with ⟨h0, -⟩ | ⟨-, hc⟩
  · simp [halg] at h0
  · exact hc

/-- SHA-256 uses all eight state words. -/
theorem eq_of_sha256_eq {g h : StateWords} (heq : g.sha256 = h.sha256) : g = h := by
  rw [← ofSha256_sha256 g, heq, ofSha256_sha256]

/-- Settles O50: each part of what R164 says of a context is a function of the message. -/
theorem absorbedStateDependsOnMessageOnly : Obligations.AbsorbedStateDependsOnMessageOnly := by
  intro s t m hs ht halg
  have hbits : s.bitCount = t.bitCount :=
    BitVec.eq_of_toNat_eq ((absorbed_bitCount hs).trans (absorbed_bitCount ht).symm)
  have hpending : s.pending = t.pending := (absorbed_pending hs).trans (absorbed_pending ht).symm
  rcases absorbed_alg hs with h0 | h1
  · exact ⟨(absorbed_md5 hs h0).trans (absorbed_md5 ht (halg ▸ h0)).symm, by simp [h0], hbits, hpending⟩
  · have hwords : s.h = t.h := eq_of_sha256_eq ((absorbed_sha256 hs h1).trans (absorbed_sha256 ht (halg ▸ h1)).symm)
    exact ⟨congrArg StateWords.md5 hwords, fun _ => hwords, hbits, hpending⟩

/-! ### One instruction -/

/-- R164: a successful UPDATE of a context that has absorbed `m` leaves one that has absorbed `m ++ data`. -/
theorem exec_update_absorbed (hm : s.Absorbed m) (herr : s.err = .none) (ho : s.Open)
    (hlen : 8 * (m.length + data.length) < 2 ^ 64) :
    ∃ t, exec (.update data) s = .next t ∧ t.ctxAlg = s.ctxAlg ∧ t.lc = .accum ∧ t.err = .none ∧
      t.Absorbed (m ++ data) := by
  have hb : s.bitCount.toNat + 8 * data.length < 2 ^ 64 := by
    rw [absorbed_bitCount hm]
    omega
  obtain ⟨hshort, hlong⟩ := absorbed_update hm hb
  rcases Nat.lt_or_ge data.length (64 - s.fill) with hd | hd
  · exact ⟨_, exec_update_short herr ho hb hd, rfl, rfl, herr, hshort hd⟩
  · exact ⟨_, exec_update_long herr ho hb (absorbed_alg hm) hd, rfl, rfl, herr, hlong⟩

/-- Settles O47, by the two steps of R164. -/
theorem contextAbsorbsMessage : Obligations.ContextAbsorbsMessage :=
  ⟨fun s _ halg => ⟨_, exec_init_ok s halg, rfl, absorbed_startContext s halg⟩,
    fun _ _ _ hm herr ho hlen => exec_update_absorbed hm herr ho hlen⟩

/-- R164's message when an UPDATE passes its checks. -/
theorem messageAfter_update_ok (herr : s.err = .none) (ho : s.Open) (hb : s.bitCount.toNat + 8 * data.length < 2 ^ 64) :
    messageAfter (.update data) s m = m ++ data := if_pos ⟨herr, ho, hb⟩

/-- R164's message when an UPDATE fails a check. -/
theorem messageAfter_update_failed
    (h : ¬ (s.err = .none ∧ s.Open ∧ s.bitCount.toNat + 8 * data.length < 2 ^ 64)) :
    messageAfter (.update data) s m = m := if_neg h

/-- R164 across one instruction: whatever an open context had absorbed, an open context behind the instruction has absorbed
the message the instruction makes of it. -/
theorem exec_keeps_absorbed (hs : s.Open → s.Absorbed m) (h : exec i s = .next t) (ho : t.Open) :
    t.Absorbed (messageAfter i s m) := by
  rcases exec_next h with ⟨alg, rfl, halg, rfl⟩ | ⟨alg, rfl, halg, rfl⟩ | ⟨⟨data, rfl⟩ | rfl, herr, rfl⟩ |
    ⟨-, -, hclosed, rfl⟩ | ⟨data, rfl, -, -, hover, rfl⟩ | ⟨data, rfl, herr, hopen, hb, hd, rfl⟩ |
    ⟨data, rfl, herr, hopen, hb, -, -, rfl⟩ | ⟨-, -, -, -, rfl⟩ | ⟨alg, rfl, desc, found, -, rfl⟩ |
    ⟨words, ⟨-, -, rfl⟩ | ⟨-, -, rfl⟩, rfl⟩
  · rw [messageAfter, if_pos halg]
    exact absorbed_startContext s halg
  · rw [messageAfter, if_neg halg]
    exact hs ho
  · rw [messageAfter_update_failed (fun hok => herr hok.1)]
    exact hs ho
  · exact hs ho
  · exact absurd ho hclosed
  · rw [messageAfter_update_failed (fun hok => absurd hok.2.2 (by omega))]
    exact hs ho
  · rw [messageAfter_update_ok herr hopen hb]
    exact (absorbed_update (hs hopen) hb).1 hd
  · rw [messageAfter_update_ok herr hopen hb]
    exact (absorbed_update (hs hopen) hb).2
  · exact absurd rfl ho.not_finalized
  · exact hs ho
  · exact hs ho
  · exact hs ho

/-! ### A run of instructions -/

/-- A run completes when its first instruction does and the rest completes from there. -/
theorem runInstrs_cons_eq_next_iff :
    runInstrs (i :: is) s = .next t ↔ ∃ u, exec i s = .next u ∧ runInstrs is u = .next t := by
  rw [runInstrs]
  split <;> simp_all

theorem messageAlong_cons {u : State} (h : exec i s = .next u) :
    messageAlong (i :: is) s m = messageAlong is u (messageAfter i s m) := by
  rw [messageAlong, h]

/-- R164 along a run. -/
theorem runInstrs_keeps_absorbed (hs : s.Open → s.Absorbed m) (h : runInstrs is s = .next t) (ho : t.Open) :
    t.Absorbed (messageAlong is s m) := by
  induction is generalizing s m with
  | nil =>
    obtain rfl : s = t := by simpa [runInstrs] using h
    exact hs ho
  | cons i is ih =>
    obtain ⟨u, hi, hrest⟩ := runInstrs_cons_eq_next_iff.mp h
    rw [messageAlong_cons hi]
    exact ih (exec_keeps_absorbed hs hi) hrest

/-- A chain over the full pieces alone is the chain over the whole sequence. -/
theorem chainBlocks_full_pieces {σ : Type} (f : σ → List Byte → σ) (st : σ) (x : List Byte) :
    chainBlocks f ((x.take (64 * (x.length / 64))).length / 64) st (x.take (64 * (x.length / 64))) =
      chainBlocks f (x.length / 64) st x := by
  have hlen : (x.take (64 * (x.length / 64))).length / 64 = x.length / 64 := by
    rw [List.length_take]
    omega
  rw [hlen, chainBlocks_take f _ st x le_rfl]

/-- Settles O46: R164 along the run, with the message's full pieces and its tail named apart. -/
theorem openContextAbsorbedItsMessage : Obligations.OpenContextAbsorbedItsMessage := by
  intro is s t m hs h ho n
  have habs := runInstrs_keeps_absorbed hs h ho
  have hmd5 := chainBlocks_full_pieces transformMd5 md5Initial (messageAlong is s m)
  have hsha := chainBlocks_full_pieces transformSha256 sha256Initial (messageAlong is s m)
  have htail : t.holds 0 (tailBytes (messageAlong is s m)) := habs.2.2
  exact ⟨fun h0 => (absorbed_md5 habs h0).trans hmd5.symm, fun h1 => (absorbed_sha256 habs h1).trans hsha.symm,
    absorbed_alg habs, absorbed_bitCount habs, htail⟩

/-! ### One job, however its message is split (R168) -/

/-- One UPDATE per chunk absorbs the chunks in a row. -/
theorem runInstrs_updates {chunks : List (List Byte)} (hm : s.Absorbed m) (herr : s.err = .none) (ho : s.Open)
    (hlen : 8 * (m ++ chunks.flatten).length < 2 ^ 64) :
    ∃ t, runInstrs (chunks.map .update) s = .next t ∧ t.ctxAlg = s.ctxAlg ∧ t.Open ∧ t.err = .none ∧
      t.Absorbed (m ++ chunks.flatten) := by
  induction chunks generalizing s m with
  | nil => exact ⟨s, rfl, rfl, ho, herr, by simpa using hm⟩
  | cons data chunks ih =>
    rw [List.flatten_cons, ← List.append_assoc] at hlen ⊢
    obtain ⟨u, hu, halg, hlc, herru, hmu⟩ := exec_update_absorbed hm herr ho (data := data) (by
      simp only [List.length_append] at hlen
      omega)
    obtain ⟨t, ht, halgt, hot, herrt, hmt⟩ := ih hmu herru (.inr hlc) hlen
    exact ⟨t, runInstrs_cons_eq_next_iff.mpr ⟨u, hu, ht⟩, halgt.trans halg, hot, herrt, hmt⟩

/-- INIT and one UPDATE per chunk leave an open context that has absorbed the concatenation, from any state. -/
theorem runInstrs_init_updates (s : State) {alg : Tag} (halg : alg = 0 ∨ alg = 1) {chunks : List (List Byte)}
    (hlen : 8 * chunks.flatten.length < 2 ^ 64) :
    ∃ u, runInstrs (.init alg :: chunks.map .update) s = .next u ∧ u.ctxAlg = alg ∧ u.Open ∧ u.err = .none ∧
      u.Absorbed chunks.flatten := by
  obtain ⟨u, hrun, hu⟩ := runInstrs_updates (absorbed_startContext s halg) rfl (.inl rfl) hlen
  exact ⟨u, runInstrs_cons_eq_next_iff.mpr ⟨_, exec_init_ok s halg, hrun⟩, hu⟩

/-- R201: a digest has the size its descriptor gives. -/
theorem length_digestOf {alg : Tag} (h : alg = 0 ∨ alg = 1) (m : List Byte) : (digestOf alg m).length = digestSize alg := by
  rcases h with rfl | rfl
  · exact length_serializeMd5 _
  · exact length_serializeSha256 _

theorem usableDigest_of_valid (hv : s.digestValid = true) (herr : s.err = .none) :
    s.usableDigest = some (s.digest.take (digestSize s.ctxAlg)) := by
  simp [State.usableDigest, hv, herr]

/-- R201, R285: the bytes of the `DIGEST` register a host reads are the digest. -/
theorem take_digestRegister {alg : Tag} (h : alg = 0 ∨ alg = 1) (m : List Byte) :
    (digestRegister alg m).take (digestSize alg) = digestOf alg m := by
  rw [digestRegister, ← length_digestOf h m, List.take_left]

/-- R283, R285: behind FINAL of a context that has absorbed `m`, the host may use the digest of `m`. -/
theorem finalState_usableDigest (hm : s.Absorbed m) (herr : s.err = .none) :
    (finalState s).usableDigest = some (digestOf s.ctxAlg m) := by
  have hctx : (finalState s).ctxAlg = s.ctxAlg := rfl
  rw [usableDigest_of_valid (s := finalState s) rfl herr, finalState_digest hm, hctx, take_digestRegister (absorbed_alg hm)]

/-- Settles O49: the chunks absorb their concatenation, and FINAL shows its digest. -/
theorem digestIndependentOfChunking : Obligations.DigestIndependentOfChunking := by
  intro s alg chunks halg hlen
  obtain ⟨u, hrun, rfl, ho, herr, hm⟩ := runInstrs_init_updates s halg hlen
  refine ⟨⟨u, hrun, rfl, hm⟩, finalState u, ?_, finalState_usableDigest hm herr, finalState_digest hm, rfl,
    absorbed_bitCount (s := u) hm⟩
  rw [job, runInstrs_append hrun]
  exact runInstrs_cons_eq_next_iff.mpr ⟨_, exec_final_ok herr ho halg, rfl⟩

end Sys2Proof.Machine
end

section
/-! PROOFS. Isolation of the engines (42 R169, 60 R255): a step of one of them touches no other. -/

namespace Sys2Proof.Machine

/-- Settles O55: an engine that steps replaces its own state in the list. -/
theorem instancesAreIsolated : Obligations.InstancesAreIsolated := by
  intro sys sys' k h
  have hother : ∀ j, j ≠ k → sys'.engines[j]? = sys.engines[j]? :=
    fun j hj => stepEngine_getElem?_ne h (Ne.symm hj)
  rcases stepEngine_eq_next_iff.mp h with ⟨hnone, rfl⟩ | ⟨e, e', he, hstep, rfl⟩
  · exact ⟨rfl, rfl, hother, fun e he => by simp [hnone] at he⟩
  · refine ⟨rfl, List.length_set, hother, fun d hd => ?_⟩
    obtain rfl : d = e := by simpa [hd] using he
    obtain ⟨hk, -⟩ := List.getElem?_eq_some_iff.mp hd
    exact ⟨e', hstep, List.getElem?_set_self hk⟩

end Sys2Proof.Machine
end

section
/-! PROOFS. FINAL (43 R190 to R195, R200 to R202): the blocks it transforms, their length field, and its next state. -/

namespace Sys2Proof.Machine

variable {s : State}

/-- The bytes FINAL transforms: the pending ones, the marker, the zeros and the length field. -/
def finalBlocks (s : State) : List Byte :=
  s.pending ++ [0x80] ++ zeros (padZeros s.fill) ++ lenBytes s.ctxAlg s.bitCount

theorem finalWords_eq_chainCtx (s : State) : finalWords s = chainCtx s.ctxAlg s.h (finalBlocks s) := by
  simp only [finalWords, padBytes, finalBlocks, List.append_assoc]

theorem length_finalBlocks (s : State) : (finalBlocks s).length = s.fill + padZeros s.fill + 9 := by
  simp [finalBlocks]
  omega

/-- R191: the padding ends at a block boundary. -/
theorem length_finalBlocks_mod (s : State) : (finalBlocks s).length % 64 = 0 := by
  rw [length_finalBlocks, padZeros_eq]
  omega

/-- With `z` zeros that complete `n` blocks, FINAL's state words chain those blocks, and the padding fills them up. -/
theorem finalWords_of_padZeros {z n : Nat} (hz : padZeros s.fill = z) (hn : s.fill + z + 9 = 64 * n) :
    finalWords s = chainBlocks (foldBlock s.ctxAlg) n s.h
      (s.pending ++ [0x80] ++ zeros z ++ lenBytes s.ctxAlg s.bitCount) ∧
    ([0x80] ++ zeros z ++ lenBytes s.ctxAlg s.bitCount).length = 64 * n - s.fill := by
  subst hz
  refine ⟨?_, ?_⟩
  · rw [finalWords_eq_chainCtx, chainCtx, length_finalBlocks, hn, Nat.mul_div_cancel_left n (by decide), finalBlocks]
  · simp
    omega

theorem padZeros_of_le {n : Nat} (h : n ≤ 55) : padZeros n = 55 - n := by
  rw [padZeros_eq]
  omega

theorem padZeros_of_ge {n : Nat} (h : 56 ≤ n) (hn : n < 64) : padZeros n = 119 - n := by
  rw [padZeros_eq]
  omega

/-- Settles O25: `55 - FILL` zeros complete one block, and `119 - FILL` complete two. -/
theorem finalTransformCount : Obligations.FinalTransformCount := by
  intro s herr ho halg
  have hlt := fill_lt s
  have hone (h : s.fill ≤ 55) := finalWords_of_padZeros (n := 1) (padZeros_of_le h) (by omega)
  have htwo (h : 56 ≤ s.fill) := finalWords_of_padZeros (n := 2) (padZeros_of_ge h hlt) (by omega)
  exact ⟨_, _, exec_final_ok herr ho halg, length_lenBytes s.ctxAlg s.bitCount, hone, htwo, length_pending s,
    fun _ hm => absorbed_fill hm⟩

/-- R12: byte `k` of a double word, the least significant first. -/
theorem getD_le64bytes (v : DWord) {k : Nat} (hk : k < 8) : (le64bytes v).getD k 0 = v.extractLsb' (8 * k) 8 := by
  simp [le64bytes, List.getD_eq_getElem?_getD, hk]

/-- R12: byte `k` of a double word, the most significant first. -/
theorem getD_be64bytes (v : DWord) {k : Nat} (hk : k < 8) : (be64bytes v).getD k 0 = v.extractLsb' (8 * (7 - k)) 8 := by
  rw [← getD_le64bytes v (show 7 - k < 8 by omega), be64bytes, List.getD_eq_getElem?_getD, List.getD_eq_getElem?_getD,
    List.getElem?_reverse hk, length_le64bytes]

/-- Settles O26: the length field closes the blocks, in the algorithm's byte order. -/
theorem lengthFieldByteOrder : Obligations.LengthFieldByteOrder := by
  refine ⟨fun s herr ho halg => ?_, by decide, by decide⟩
  refine ⟨_, padZeros s.fill, lenBytes s.ctxAlg s.bitCount, exec_final_ok herr ho halg, length_lenBytes _ _,
    length_finalBlocks_mod s, finalWords_eq_chainCtx s, fun hmd5 k hk => ?_, fun hsha k hk => ?_⟩
  · rw [hmd5]
    exact getD_le64bytes s.bitCount hk
  · rw [hsha]
    exact getD_be64bytes s.bitCount hk

theorem finalState_digest_eq_serialBytes (s : State) : (finalState s).digest = serialBytes s.ctxAlg (finalWords s) ++
    zeros (Config.digestBytes - (serialBytes s.ctxAlg (finalWords s)).length) := rfl

/-- R200: MD5's digest bytes, word by word. -/
theorem serialBytes_md5 (h : StateWords) :
    serialBytes 0 h = le32bytes h.h0 ++ le32bytes h.h1 ++ le32bytes h.h2 ++ le32bytes h.h3 := rfl

/-- R200: SHA-256's digest bytes, word by word. -/
theorem serialBytes_sha256 (h : StateWords) :
    serialBytes 1 h = be32bytes h.h0 ++ be32bytes h.h1 ++ be32bytes h.h2 ++ be32bytes h.h3 ++
      be32bytes h.h4 ++ be32bytes h.h5 ++ be32bytes h.h6 ++ be32bytes h.h7 := rfl

/-- Settles O24: the closed form of FINAL's next state, with its digest written out for each algorithm. -/
theorem finalEmitsDigest : Obligations.FinalEmitsDigest := by
  intro s herr ho halg
  refine ⟨_, exec_final_ok herr ho halg, rfl, rfl, fun hmd5 => ?_, fun hsha => ?_⟩
  · rw [finalState_digest_eq_serialBytes, hmd5, serialBytes_md5]
    rfl
  · rw [finalState_digest_eq_serialBytes, hsha, serialBytes_sha256]
    exact List.append_nil _

end Sys2Proof.Machine
end

section
/-! PROOFS. The digest of a whole message (43 R196): FINAL writes it, and the four known answers (95 V1). -/

namespace Sys2Proof.Machine

/-- R32, R201: MD5's digest leaves 16 zero bytes in the register. -/
theorem digestRegister_md5 (m : List Byte) : digestRegister 0 m = digestMd5 m ++ List.replicate 16 0 := rfl

/-- R201: SHA-256's digest fills the register. -/
theorem digestRegister_sha256 (m : List Byte) : digestRegister 1 m = digestSha256 m := List.append_nil _

/-- Settles O48: FINAL fills `DIGEST` with the digest of R196, whose two cases are the formulas spelled out. -/
theorem finalGivesMessageDigest : Obligations.FinalGivesMessageDigest := by
  intro s m hm herr ho
  refine ⟨_, exec_final_ok herr ho (absorbed_alg hm), rfl, fun hmd5 => ?_, fun hsha => ?_⟩
  · rw [finalState_digest hm, hmd5, digestRegister_md5]
    rfl
  · rw [finalState_digest hm, hsha, digestRegister_sha256]
    rfl

/-- Settles O51, by running both algorithms on the two messages. -/
theorem knownAnswerDigests : Obligations.KnownAnswerDigests :=
  ⟨by decide +kernel, by decide +kernel, by decide +kernel, by decide +kernel⟩

end Sys2Proof.Machine
end

section
/-! PROOFS. The hexadecimal rendering (43 R203): its length, and that it determines the bytes. -/

namespace Sys2Proof.Machine

@[simp] theorem length_hexByte (b : Byte) : (hexByte b).length = 2 := rfl

theorem hexRender_cons (b : Byte) (x : List Byte) : hexRender (b :: x) = hexByte b ++ hexRender x := rfl

theorem length_hexRender (x : List Byte) : (hexRender x).length = 2 * x.length := by
  induction x with
  | nil => rfl
  | cons b x ih =>
    rw [hexRender_cons, List.length_append, length_hexByte, ih, List.length_cons]
    omega

/-- The sixteen digits differ from each other. -/
theorem hexDigits_getD_inj {m n : Nat} (hm : m < 16) (hn : n < 16) (h : hexDigits.getD m '0' = hexDigits.getD n '0') :
    m = n := by
  have hnodup : hexDigits.Nodup := by decide
  rw [List.getD_eq_getElem _ _ hm, List.getD_eq_getElem _ _ hn] at h
  exact (hnodup.getElem_inj_iff).mp h

/-- A byte is known by its two nibbles. -/
theorem hexByte_injective : Function.Injective hexByte := by
  intro b c h
  obtain ⟨hhigh, hlow⟩ : hexDigits.getD (b.toNat / 16) '0' = hexDigits.getD (c.toNat / 16) '0' ∧
      hexDigits.getD (b.toNat % 16) '0' = hexDigits.getD (c.toNat % 16) '0' := by
    simpa [hexByte] using h
  have hhigh := hexDigits_getD_inj (by omega) (by omega) hhigh
  have hlow := hexDigits_getD_inj (by omega) (by omega) hlow
  exact BitVec.eq_of_toNat_eq (by omega)

theorem hexRender_injective : Function.Injective hexRender := by
  intro x
  induction x with
  | nil =>
    rintro (_ | ⟨c, y⟩) h
    · rfl
    · simp [hexRender, hexByte] at h
  | cons b x ih =>
    rintro (_ | ⟨c, y⟩) h
    · simp [hexRender, hexByte] at h
    · rw [hexRender_cons, hexRender_cons] at h
      obtain ⟨hbyte, hrest⟩ := List.append_inj h rfl
      rw [hexByte_injective hbyte, ih hrest]

/-- Settles O54: the rendering is byte by byte, and a byte's digits determine it. -/
theorem hexRenderingIsFaithful : Obligations.HexRenderingIsFaithful :=
  ⟨length_hexRender, fun _ _ h => hexRender_injective h, rfl⟩

end Sys2Proof.Machine
end

section
/-! PROOFS. LOOKUP in the middle of a job (44 R222): what each instruction does beside a changed `DESC` and `DESC_VALID`. -/

namespace Sys2Proof.Machine

variable {i : Instr} {s u : State}

/-- UPDATE's effect carries `DESC` and `DESC_VALID` along. -/
theorem appendPayload_setDesc (data : List Byte) (s : State) (d : Descriptor) (found : Bool) :
    appendPayload data (s.setDesc d found) = (appendPayload data s).map (·.setDesc d found) := by
  rcases Nat.lt_or_ge data.length (64 - s.fill) with hd | hd
  · rw [appendPayload_short hd, appendPayload_short (s := s.setDesc d found) hd]
    rfl
  by_cases halg : s.ctxAlg = 0 ∨ s.ctxAlg = 1
  · rw [appendPayload_long halg hd, appendPayload_long (s := s.setDesc d found) halg hd]
    rfl
  · rw [appendPayload_illegal halg hd, appendPayload_illegal (s := s.setDesc d found) halg hd]
    rfl

/-- FINAL's effect carries `DESC` and `DESC_VALID` along. -/
theorem emitDigest_setDesc (s : State) (d : Descriptor) (found : Bool) :
    emitDigest (s.setDesc d found) = (emitDigest s).map (·.setDesc d found) := by
  by_cases halg : s.ctxAlg = 0 ∨ s.ctxAlg = 1
  · rw [emitDigest_ok halg, emitDigest_ok (s := s.setDesc d found) halg]
    rfl
  · rw [emitDigest_illegal halg, emitDigest_illegal (s := s.setDesc d found) halg]
    rfl

theorem ofResult_eq_next_iff {r : Except Fault State} : ofResult r = .next u ↔ r = .ok u := by
  cases r <;> simp [ofResult]

/-- R222: LOOKUP overwrites whatever `DESC` and `DESC_VALID` held. -/
theorem exec_lookup_setDesc (alg : Tag) (s : State) (d : Descriptor) (found : Bool) :
    exec (.lookup alg) (s.setDesc d found) = exec (.lookup alg) s := by
  cases h : descriptorOf alg with
  | some row => exact (exec_lookup_of_row h).trans (exec_lookup_of_row h).symm
  | none => exact (exec_lookup_of_no_row h).trans (exec_lookup_of_no_row h).symm

/-- No instruction reads `DESC` or `DESC_VALID`: with other values there, it does the same to everything else. -/
theorem exec_setDesc (h : exec i s = .next u) (d : Descriptor) (found : Bool) :
    ∃ v, exec i (s.setDesc d found) = .next v ∧ v.setDesc u.desc u.descValid = u := by
  cases i with
  | init alg =>
    by_cases halg : alg = 0 ∨ alg = 1
    · rw [exec, execInit, if_pos halg] at h
      cases h
      exact ⟨_, if_pos halg, rfl⟩
    · rw [exec, execInit, if_neg halg] at h
      cases h
      exact ⟨_, if_neg halg, rfl⟩
  | update data =>
    rw [exec, execUpdate] at h
    split_ifs at h with herr hlc hlen
    · cases h
      exact ⟨_, if_pos herr, rfl⟩
    · cases h
      exact ⟨_, (if_neg herr).trans (if_pos hlc), rfl⟩
    · cases h
      exact ⟨_, (if_neg herr).trans ((if_neg hlc).trans (if_pos hlen)), rfl⟩
    · refine ⟨u.setDesc d found, (if_neg herr).trans ((if_neg hlc).trans ((if_neg hlen).trans ?_)), rfl⟩
      rw [appendPayload_setDesc, ofResult_eq_next_iff.mp h]
      rfl
  | final =>
    rw [exec, execFinal] at h
    split_ifs at h with herr hlc
    · cases h
      exact ⟨_, if_pos herr, rfl⟩
    · cases h
      exact ⟨_, (if_neg herr).trans (if_pos hlc), rfl⟩
    · refine ⟨u.setDesc d found, (if_neg herr).trans ((if_neg hlc).trans ?_), rfl⟩
      rw [emitDigest_setDesc, ofResult_eq_next_iff.mp h]
      rfl
  | lookup alg => exact ⟨u, (exec_lookup_setDesc alg s d found).trans h, rfl⟩
  | md5Transform st blk => cases h; exact ⟨_, rfl, rfl⟩
  | sha256Transform st blk => cases h; exact ⟨_, rfl, rfl⟩

/-- Settles O28: LOOKUP writes `DESC` and `DESC_VALID` alone, and no instruction reads them. -/
theorem lookupDoesNotDisturbJob : Obligations.LookupDoesNotDisturbJob := by
  intro alg i s t u ht hu
  have hframe : t = s.setDesc t.desc t.descValid := exec_frame ht
  rw [hframe]
  exact exec_setDesc hu t.desc t.descValid

end Sys2Proof.Machine
end

section
/-! PROOFS. The names of the algorithms (44 R224): which ones resolve, and what folding does first. -/

namespace Sys2Proof.Machine

/-- R224: without folding, a name resolves to a tag exactly when it is that tag's name in the table. -/
theorem resolveName_false_eq_some_iff {name : List Byte} {tag : Tag} : resolveName false name = some tag ↔
    (name = md5Name ∧ tag = 0) ∨ (name = sha256Name ∧ tag = 1) := by
  have hne : md5Name ≠ sha256Name := by decide
  simp only [resolveName, Bool.false_eq_true, if_false]
  split_ifs with hmd5 hsha
  · subst hmd5
    simpa [hne] using eq_comm
  · subst hsha
    simpa [hmd5] using eq_comm
  · simp [hmd5, hsha]

/-- Settles O53: the two names by the table, and folding by definition. -/
theorem namesResolveExactly : Obligations.NamesResolveExactly :=
  ⟨fun _ _ => resolveName_false_eq_some_iff, fun _ => rfl⟩

end Sys2Proof.Machine
end

section
/-! PROOFS. Errors (60 R240 to R246): when an instruction records one, and that a step records the first one alone. -/

namespace Sys2Proof.Machine

variable {i : Instr} {s t : State} {data : List Byte}

/-! ### The checks of R240 -/

theorem exec_update_of_err (herr : s.err ≠ .none) (data : List Byte) : exec (.update data) s = .next s := if_pos herr

theorem exec_final_of_err (herr : s.err ≠ .none) : exec .final s = .next s := if_pos herr

theorem exec_update_of_not_open (herr : s.err = .none) (hlc : s.lc = .uninit ∨ s.lc = .finalized) (data : List Byte) :
    exec (.update data) s = .next { s with err := .seqErr } := by
  rw [exec, execUpdate, if_neg (not_not_intro herr), if_pos hlc, raise_of_none herr]

theorem exec_final_of_not_open (herr : s.err = .none) (hlc : s.lc = .uninit ∨ s.lc = .finalized) :
    exec .final s = .next { s with err := .seqErr } := by
  rw [exec, execFinal, if_neg (not_not_intro herr), if_pos hlc, raise_of_none herr]

theorem exec_update_of_overflow (herr : s.err = .none) (ho : s.Open) (hb : 2 ^ 64 ≤ s.bitCount.toNat + 8 * data.length) :
    exec (.update data) s = .next { s with err := .lenOvf } := by
  have hlc : ¬ (s.lc = .uninit ∨ s.lc = .finalized) := fun h => not_open_iff.mpr h ho
  rw [exec, execUpdate, if_neg (not_not_intro herr), if_neg hlc, if_pos hb, raise_of_none herr]

/-- R244: a tag without an algorithm is not found. -/
theorem exec_init_unknown (s : State) {alg : Tag} (halg : alg = 2 ∨ alg = 3) :
    exec (.init alg) s = .next (s.raise .algNotFound) := by
  rcases halg with rfl | rfl <;> rfl

/-- R283: a host may use no digest while an error stands. -/
theorem usableDigest_of_err (herr : s.err ≠ .none) : s.usableDigest = none := by
  simp [State.usableDigest, herr]

/-- R241: behind a raise some error stands. -/
theorem raise_err_ne_none {code : ErrCode} (hcode : code ≠ .none) : (s.raise code).err ≠ .none := by
  rw [raise_err]
  split_ifs with herr
  · exact hcode
  · exact herr

/-- R241: the first error wins, so a raise that changes `STATUS.ERR` found none. -/
theorem err_eq_none_of_raise_ne {code : ErrCode} (hne : (s.raise code).err ≠ s.err) : s.err = .none := by
  by_contra hs
  exact hne (by rw [raise_of_err hs])

/-- Settles O11: with nothing waiting the engine keeps its state. -/
theorem idleStepKeepsState : Obligations.IdleStepKeepsState := fun _ hq hi => step_of_idle hq hi

/-- Settles O33, by the first check of R240. -/
theorem poisonedContextIgnoresUpdateAndFinal : Obligations.PoisonedContextIgnoresUpdateAndFinal := fun _ herr =>
  ⟨exec_update_of_err herr, exec_final_of_err herr⟩

/-- Settles O34, by the check of the lifecycle. -/
theorem outOfSequenceRaisesSeqErr : Obligations.OutOfSequenceRaisesSeqErr := fun _ herr hlc =>
  ⟨exec_update_of_not_open herr hlc, exec_final_of_not_open herr hlc, rfl⟩

/-- Settles O23, by the check of the length, after which the recorded error withholds any digest. -/
theorem lengthOverflowIsRefused : Obligations.LengthOverflowIsRefused := fun _ _ herr ho hb =>
  ⟨exec_update_of_overflow herr ho hb, rfl, usableDigest_of_err nofun⟩

/-- Settles O8: a word with one of these fields is no command's, and it comes alone. -/
theorem illegalWordRaisesIllegalCmd : Obligations.IllegalWordRaisesIllegalCmd := by
  intro s w rest hq hi hfields
  refine ⟨?_, rfl⟩
  cases hd : decodeWord w with
  | error why => exact (step_of_event hq hi).trans (runTransaction_of_illegal hd _)
  | ok c =>
    have hlegal := exists_decodeWord_eq_ok_iff.mp ⟨c, hd⟩
    simp only [opField, algField, rsvField, lenField24] at hlegal
    rcases hlegal with ⟨hrsv, ⟨hop, hlen⟩ | ⟨hop, halg⟩ | ⟨hop, halg, hlen⟩ | ⟨hop, hlen⟩⟩ <;>
      simp [*] at hfields

/-! ### A step that changes `STATUS.ERR` -/

/-- A step that changes `STATUS.ERR` either records a first error, beside which it takes its event or request alone, or
clears it as a hardware reset or a successful INIT. -/
theorem step_err (h : step s = .next t) (hne : t.err ≠ s.err) :
    (s.err = .none ∧ t = { s with err := t.err, inbox := t.inbox, unitReq := t.unitReq }) ∨
    (t.err = .none ∧ s.unitReq = none ∧ ∃ rest, s.inbox = .reset :: rest ∨
      ∃ tr alg, s.inbox = .command tr :: rest ∧ decodeTransaction tr = .ok (.init alg) ∧ (alg = 0 ∨ alg = 1)) := by
  rcases step_next h with ⟨q, i, -, hi, hx⟩ | ⟨-, -, rfl⟩ | ⟨tr, rest, i, hq, hin, hd, hx⟩ |
    ⟨-, rest, -, -, -, -, rfl⟩ | ⟨-, rest, v, -, -, -, rfl⟩ | ⟨rest, hq, hin, rfl⟩
  · rcases exec_err hx hne with ⟨hs, ht⟩ | ⟨-, alg, rfl, -⟩
    · exact .inl ⟨hs, by rw [ht]⟩
    · exact absurd (decodeUnit_transform hi) (by simp)
  · exact absurd rfl hne
  · rcases exec_err hx hne with ⟨hs, ht⟩ | ⟨ht, alg, rfl, halg⟩
    · exact .inl ⟨hs, by rw [ht]⟩
    · exact .inr ⟨ht, hq, rest, .inr ⟨tr, alg, hin, hd, halg⟩⟩
  · exact .inl ⟨err_eq_none_of_raise_ne hne, rfl⟩
  · exact absurd rfl hne
  · exact .inr ⟨rfl, hq, rest, .inl hin⟩

/-- Settles O35: a step that changes `STATUS.ERR` without clearing it records a first error. -/
theorem errorsArePrecise : Obligations.ErrorsArePrecise := by
  refine ⟨fun s t h hne hrec => ?_, fun s code => raise_of_err⟩
  rcases step_err h hne with ⟨hs, ht⟩ | ⟨hclear, -⟩
  · exact ⟨hs, ht, statusWord_err⟩
  · exact absurd hclear hrec

/-- Settles O36: a step that changes a standing error clears it. -/
theorem onlyInitAndResetClearError : Obligations.OnlyInitAndResetClearError := by
  intro s t h herr hne
  rcases step_err h hne with ⟨hs, -⟩ | hclear
  · exact absurd hs herr
  · exact hclear

/-! ### Runs while an error stands -/

/-- R240, R241: while an error stands, an instruction that is no successful INIT writes `DESC` and the unit's reply at
most. -/
theorem exec_of_err (herr : s.err ≠ .none) (hinit : ∀ alg, i = .init alg → alg = 2 ∨ alg = 3) (h : exec i s = .next t) :
    t = { s with desc := t.desc, descValid := t.descValid, unitReply := t.unitReply } := by
  cases i with
  | init alg =>
    rw [exec_init_unknown s (hinit alg rfl), raise_of_err herr] at h
    cases h; rfl
  | update data =>
    rw [exec_update_of_err herr data] at h
    cases h; rfl
  | final =>
    rw [exec_final_of_err herr] at h
    cases h; rfl
  | lookup _ | md5Transform _ _ | sha256Transform _ _ =>
    rw [show t = _ from exec_frame h]

/-- A run without a successful INIT keeps every register but `DESC` while an error stands. -/
theorem runInstrs_of_err {is : List Instr} (herr : s.err ≠ .none) (hinit : ∀ alg, .init alg ∈ is → alg = 2 ∨ alg = 3)
    (h : runInstrs is s = .next t) :
    t = { s with desc := t.desc, descValid := t.descValid, unitReply := t.unitReply } := by
  induction is generalizing s with
  | nil => cases h; rfl
  | cons i is ih =>
    obtain ⟨u, hu, hrest⟩ := runInstrs_cons_eq_next_iff.mp h
    have hframe := exec_of_err herr (fun alg hi => hinit alg (hi ▸ List.mem_cons_self)) hu
    have huerr : u.err = s.err := by rw [hframe]
    rw [ih (huerr ▸ herr) (fun alg hm => hinit alg (List.mem_cons_of_mem i hm)) hrest, hframe]

/-- Settles O37: the error is among the registers the run keeps, and it withholds any digest. -/
theorem noDigestAfterError : Obligations.NoDigestAfterError := by
  intro is s t herr hinit h
  have hframe := runInstrs_of_err herr hinit h
  have hterr : t.err = s.err := by rw [hframe]
  exact ⟨hterr, usableDigest_of_err (hterr ▸ herr), hframe⟩

/-- Settles O17: INIT raises the error, and the run behind it keeps the context. -/
theorem initUnknownTagRaisesAlgNotFound : Obligations.InitUnknownTagRaisesAlgNotFound := by
  intro s alg halg
  have herr : (s.raise .algNotFound).err ≠ .none := raise_err_ne_none nofun
  refine ⟨s.raise .algNotFound, exec_init_unknown s halg, rfl, fun hs => ?_, exec_update_of_err herr,
    exec_final_of_err herr, fun is u hinit h => ?_⟩
  · rw [statusWord_err, raise_err, if_pos hs]
    rfl
  · rw [runInstrs_of_err herr hinit h]
    exact ⟨rfl, rfl, rfl, rfl, rfl, rfl⟩

end Sys2Proof.Machine
end
